-- ==== Sys2Proof/Word.lean ====
section
/-! DEFINITION. The words of the block: 16-bit register, memory and instruction words, and the 8-bit
bytes that the keyboard and the console carry (spec/00_scope.md R5, R6). Addition of two `Word`s is
the addition modulo 2^16 of R7. -/

namespace Sys2Proof

/-- A register value, a memory word, an address or an instruction word (R5: `XLEN` and `ALEN` are 16). -/
abbrev Word := BitVec 16

/-- A byte of the keyboard's input or of the console's output (R8: `KbdRead`, `ConOut`). -/
abbrev Byte := BitVec 8

/-- The index of a general register, 0 to 7 (R10; R5: `NREG` is 8). -/
abbrev Reg := Fin 8

end Sys2Proof
end

