-- ==== Sys2Proof/Machine/Params.lean ====
section
/-! DEFINITION. The parameters of the block that have a value (spec/00_scope.md R5). The opcode map is in
Decode.lean, the flag bits are in Machine/Flags.lean, and the parameters the spec leaves open are in
Config.lean. -/

namespace Sys2Proof.Param

/-- `PC_RESET`, the program start address. -/
def pcReset : Word := 0x3000

/-- `GPR_RESET`, the reset value of each general register (log entry 3: the spec's decision D3). -/
def gprReset : Word := 0x0000

/-- `KBSR`, the keyboard status address. -/
def kbsr : Word := 0xFE00

/-- `KBDR`, the keyboard data address. -/
def kbdr : Word := 0xFE02

/-- `LINK`, the register that JSR, JSRR and TRAP write the return address to (spec/10_state.md R11). -/
def link : Reg := 7

/-- The register that carries the argument and the result of the trap services (spec/10_state.md R11). -/
def trapArg : Reg := 0

/-- `TRAP_GETC`. -/
def vectGetc : BitVec 8 := 0x20

/-- `TRAP_OUT`. -/
def vectOut : BitVec 8 := 0x21

/-- `TRAP_PUTS`. -/
def vectPuts : BitVec 8 := 0x22

/-- `TRAP_IN`. -/
def vectIn : BitVec 8 := 0x23

/-- `TRAP_PUTSP`. -/
def vectPutsp : BitVec 8 := 0x24

/-- `TRAP_HALT`. -/
def vectHalt : BitVec 8 := 0x25

/-- The six vectors that select a service (spec/30_encoding.md R60). -/
def serviceVectors : List (BitVec 8) :=
  [vectGetc, vectOut, vectPuts, vectIn, vectPutsp, vectHalt]

end Sys2Proof.Param
end

