-- ==== Sys2Proof/Syntax.lean ====
section
/-! DEFINITION. The instructions: one constructor of `Instr` for each of the 25 rows of
spec/opcode_table.json, and the sixteen opcode names of spec/30_encoding.md R52.

Fields are the operands of R59. Bits that no rule reads (R56) are no operands and are not kept, except
the low 12 bits of RTI and RES: the fault record takes the whole instruction word (spec/60_exceptions.md
R171), so those two constructors carry what is needed to rebuild it. -/

namespace Sys2Proof

/-- The sixteen opcode names (R52). Their 4-bit numbers are in Decode.lean. -/
inductive Opcode where
  | br | add | ld | st | jsr | and | ldr | str
  | rti | not | ldi | sti | jmp | res | lea | trap
deriving DecidableEq, Repr

inductive Instr where
  /-- BR: `nzp` is `ir[11:9]`, n its bit 2, z its bit 1, p its bit 0 (R90, R59). -/
  | br (nzp : BitVec 3) (off : BitVec 9)
  /-- ADD, register form (R80). -/
  | add (dr sr1 sr2 : Reg)
  /-- ADD, immediate form (R81). -/
  | addImm (dr sr1 : Reg) (imm : BitVec 5)
  /-- LD (R100). -/
  | ld (dr : Reg) (off : BitVec 9)
  /-- ST (R104). -/
  | st (sr : Reg) (off : BitVec 9)
  /-- JSR (R94). -/
  | jsr (off : BitVec 11)
  /-- JSRR (R95). -/
  | jsrr (base : Reg)
  /-- AND, register form (R82). -/
  | and (dr sr1 sr2 : Reg)
  /-- AND, immediate form (R83). -/
  | andImm (dr sr1 : Reg) (imm : BitVec 5)
  /-- LDR (R102). -/
  | ldr (dr base : Reg) (off : BitVec 6)
  /-- STR (R106). -/
  | str (sr base : Reg) (off : BitVec 6)
  /-- RTI, unimplemented (R140); `low` is `ir[11:0]`, recorded and otherwise ignored. -/
  | rti (low : BitVec 12)
  /-- NOT (R84). -/
  | not (dr sr1 : Reg)
  /-- LDI (R101). -/
  | ldi (dr : Reg) (off : BitVec 9)
  /-- STI (R105). -/
  | sti (sr : Reg) (off : BitVec 9)
  /-- JMP; RET when `base` is 7 (R92, R93). -/
  | jmp (base : Reg)
  /-- RES, unimplemented (R141); `low` is `ir[11:0]`, recorded and otherwise ignored. -/
  | res (low : BitVec 12)
  /-- LEA (R103). -/
  | lea (dr : Reg) (off : BitVec 9)
  /-- TRAP with vector 0x20 (R121). -/
  | trapGetc
  /-- TRAP with vector 0x21 (R122). -/
  | trapOut
  /-- TRAP with vector 0x22 (R123). -/
  | trapPuts
  /-- TRAP with vector 0x23 (R124). -/
  | trapIn
  /-- TRAP with vector 0x24 (R125). -/
  | trapPutsp
  /-- TRAP with vector 0x25 (R126). -/
  | trapHalt
  /-- TRAP with any other vector (R127); WellFormed.lean keeps the six service vectors out. -/
  | trapOther (vect : BitVec 8)
deriving DecidableEq, Repr

/-- The opcode name under which the execution cycle dispatches an instruction (R73). -/
def Instr.opcode : Instr → Opcode
  | .br _ _ => .br
  | .add _ _ _ => .add
  | .addImm _ _ _ => .add
  | .ld _ _ => .ld
  | .st _ _ => .st
  | .jsr _ => .jsr
  | .jsrr _ => .jsr
  | .and _ _ _ => .and
  | .andImm _ _ _ => .and
  | .ldr _ _ _ => .ldr
  | .str _ _ _ => .str
  | .rti _ => .rti
  | .not _ _ => .not
  | .ldi _ _ => .ldi
  | .sti _ _ => .sti
  | .jmp _ => .jmp
  | .res _ => .res
  | .lea _ _ => .lea
  | .trapGetc => .trap
  | .trapOut => .trap
  | .trapPuts => .trap
  | .trapIn => .trap
  | .trapPutsp => .trap
  | .trapHalt => .trap
  | .trapOther _ => .trap

end Sys2Proof
end

