-- ==== Sys2Proof/WellFormed.lean ====
section
/-! DEFINITION. Which terms of `Instr` are instructions. Register indices, immediates and offsets are
bounded by their types, and every value of each is valid (spec/30_encoding.md R54: "no invalid-operand
error is possible by construction"), so one check remains: the row TRAP.other stands for the 250
vectors that select no service (R60). -/

namespace Sys2Proof

/-- Whether a term is an instruction: `trapOther` carries none of the six service vectors. -/
def Instr.wellFormed : Instr → Bool
  | .br _ _ => true
  | .add _ _ _ => true
  | .addImm _ _ _ => true
  | .ld _ _ => true
  | .st _ _ => true
  | .jsr _ => true
  | .jsrr _ => true
  | .and _ _ _ => true
  | .andImm _ _ _ => true
  | .ldr _ _ _ => true
  | .str _ _ _ => true
  | .rti _ => true
  | .not _ _ => true
  | .ldi _ _ => true
  | .sti _ _ => true
  | .jmp _ => true
  | .res _ => true
  | .lea _ _ => true
  | .trapGetc => true
  | .trapOut => true
  | .trapPuts => true
  | .trapIn => true
  | .trapPutsp => true
  | .trapHalt => true
  | .trapOther vect => !Param.serviceVectors.contains vect

end Sys2Proof
end

