-- ==== Sys2Proof/Decode.lean ====
section
/-! DEFINITION. The decoder and the encoder (spec/30_encoding.md R50 to R60, spec/opcode_table.json).

The decoder is total on words: "every one of the 65,536 instruction words decodes to exactly one row"
(R54). On a string of bytes it refuses, by name, only one too short to hold a word. -/

namespace Sys2Proof

/-- `OPCODE_MAP`: the opcode that each value of `ir[15:12]` selects, the rows of R52 read as the four bits
from 15 down to 12. The numbers are the spec's decision D1 (log entry 1, PRESUMED by the spec). -/
def Opcode.ofCode (c : BitVec 4) : Opcode :=
  match c.getLsbD 3, c.getLsbD 2, c.getLsbD 1, c.getLsbD 0 with
  | false, false, false, false => .br
  | false, false, false, true => .add
  | false, false, true, false => .ld
  | false, false, true, true => .st
  | false, true, false, false => .jsr
  | false, true, false, true => .and
  | false, true, true, false => .ldr
  | false, true, true, true => .str
  | true, false, false, false => .rti
  | true, false, false, true => .not
  | true, false, true, false => .ldi
  | true, false, true, true => .sti
  | true, true, false, false => .jmp
  | true, true, false, true => .res
  | true, true, true, false => .lea
  | true, true, true, true => .trap

/-- The 4-bit number of an opcode, the same table read the other way (R52; log entry 1). -/
def Opcode.code : Opcode → BitVec 4
  | .br => 0x0
  | .add => 0x1
  | .ld => 0x2
  | .st => 0x3
  | .jsr => 0x4
  | .and => 0x5
  | .ldr => 0x6
  | .str => 0x7
  | .rti => 0x8
  | .not => 0x9
  | .ldi => 0xA
  | .sti => 0xB
  | .jmp => 0xC
  | .res => 0xD
  | .lea => 0xE
  | .trap => 0xF

/-- The register index held in three bits of an instruction word, `ir[lo+2:lo]` (R10, R59). -/
def regField (ir : Word) (lo : Nat) : Reg := (ir.extractLsb' lo 3).toFin

/-- The service an 8-bit vector selects, or none of them (R53, R60). -/
def decodeTrap (vect : BitVec 8) : Instr :=
  if vect = Param.vectGetc then .trapGetc
  else if vect = Param.vectOut then .trapOut
  else if vect = Param.vectPuts then .trapPuts
  else if vect = Param.vectIn then .trapIn
  else if vect = Param.vectPutsp then .trapPutsp
  else if vect = Param.vectHalt then .trapHalt
  else .trapOther vect

/-- The instruction a word spells: the opcode is `ir[15:12]`, ADD and AND test `ir[5]`, JSR tests `ir[11]`,
TRAP compares `ir[7:0]`, and the fields are those of the selected format (R51, R53, R54). -/
def decode (ir : Word) : Instr :=
  match Opcode.ofCode (ir.extractLsb' 12 4) with
  | .br => .br (ir.extractLsb' 9 3) (ir.extractLsb' 0 9)
  | .add =>
    if ir.getLsbD 5 then .addImm (regField ir 9) (regField ir 6) (ir.extractLsb' 0 5)
    else .add (regField ir 9) (regField ir 6) (regField ir 0)
  | .ld => .ld (regField ir 9) (ir.extractLsb' 0 9)
  | .st => .st (regField ir 9) (ir.extractLsb' 0 9)
  | .jsr => if ir.getLsbD 11 then .jsr (ir.extractLsb' 0 11) else .jsrr (regField ir 6)
  | .and =>
    if ir.getLsbD 5 then .andImm (regField ir 9) (regField ir 6) (ir.extractLsb' 0 5)
    else .and (regField ir 9) (regField ir 6) (regField ir 0)
  | .ldr => .ldr (regField ir 9) (regField ir 6) (ir.extractLsb' 0 6)
  | .str => .str (regField ir 9) (regField ir 6) (ir.extractLsb' 0 6)
  | .rti => .rti (ir.extractLsb' 0 12)
  | .not => .not (regField ir 9) (regField ir 6)
  | .ldi => .ldi (regField ir 9) (ir.extractLsb' 0 9)
  | .sti => .sti (regField ir 9) (ir.extractLsb' 0 9)
  | .jmp => .jmp (regField ir 6)
  | .res => .res (ir.extractLsb' 0 12)
  | .lea => .lea (regField ir 9) (ir.extractLsb' 0 9)
  | .trap => decodeTrap (ir.extractLsb' 0 8)

/-- Why a string of bytes spells no instruction. -/
inductive DecodeError where
  /-- Raised by `decodeBytes` on fewer than two bytes: an instruction is one 16-bit word (R50). Safe. -/
  | truncatedWord
deriving DecidableEq, Repr

/-- The first instruction of a string of bytes and the bytes after it. The bytes are in the order of an
image file, high byte first (R37, R196): inside the block a word has no byte order (log entry 7). -/
def decodeBytes : List Byte → Except DecodeError (Instr × List Byte)
  | hi :: lo :: rest => .ok (decode (hi ++ lo), rest)
  | _ => .error .truncatedWord

/-- The three bits of a register field. -/
def regBits (r : Reg) : BitVec 3 := BitVec.ofFin r

/-- The word of format TRAP for a vector, ignored bits 0 (R51, R63). -/
def encodeTrap (vect : BitVec 8) : Word := Opcode.trap.code ++ 0b0000#4 ++ vect

/-- The word of an instruction, from the bit strings of R51. Ignored bits are 0, except NOT's, which are
all 1 (R56: what "an assembler for this block should write"; log entry 19). -/
def encode : Instr → Word
  | .br nzp off => Opcode.br.code ++ nzp ++ off
  | .add dr sr1 sr2 => Opcode.add.code ++ regBits dr ++ regBits sr1 ++ 0b0#1 ++ 0b00#2 ++ regBits sr2
  | .addImm dr sr1 imm => Opcode.add.code ++ regBits dr ++ regBits sr1 ++ 0b1#1 ++ imm
  | .ld dr off => Opcode.ld.code ++ regBits dr ++ off
  | .st sr off => Opcode.st.code ++ regBits sr ++ off
  | .jsr off => Opcode.jsr.code ++ 0b1#1 ++ off
  | .jsrr base => Opcode.jsr.code ++ 0b0#1 ++ 0b00#2 ++ regBits base ++ 0b000000#6
  | .and dr sr1 sr2 => Opcode.and.code ++ regBits dr ++ regBits sr1 ++ 0b0#1 ++ 0b00#2 ++ regBits sr2
  | .andImm dr sr1 imm => Opcode.and.code ++ regBits dr ++ regBits sr1 ++ 0b1#1 ++ imm
  | .ldr dr base off => Opcode.ldr.code ++ regBits dr ++ regBits base ++ off
  | .str sr base off => Opcode.str.code ++ regBits sr ++ regBits base ++ off
  | .rti low => Opcode.rti.code ++ low
  | .not dr sr1 => Opcode.not.code ++ regBits dr ++ regBits sr1 ++ 0b111111#6
  | .ldi dr off => Opcode.ldi.code ++ regBits dr ++ off
  | .sti sr off => Opcode.sti.code ++ regBits sr ++ off
  | .jmp base => Opcode.jmp.code ++ 0b000#3 ++ regBits base ++ 0b000000#6
  | .res low => Opcode.res.code ++ low
  | .lea dr off => Opcode.lea.code ++ regBits dr ++ off
  | .trapGetc => encodeTrap Param.vectGetc
  | .trapOut => encodeTrap Param.vectOut
  | .trapPuts => encodeTrap Param.vectPuts
  | .trapIn => encodeTrap Param.vectIn
  | .trapPutsp => encodeTrap Param.vectPutsp
  | .trapHalt => encodeTrap Param.vectHalt
  | .trapOther vect => encodeTrap vect

/-- The instruction read from an opcode-table word: every row is one 16-bit word (R50), and a shorter
`nbits` leaves the bits above it 0. -/
def decodeTableWord (nbits w : Nat) : Option Instr :=
  some (decode (BitVec.ofNat 16 (w % 2 ^ nbits)))

end Sys2Proof
end

