-- ==== Sys2Proof/Machine/Bits.lean ====
section
/-! DEFINITION. The fields of a word that rules pick out, and the two extensions (spec/00_scope.md R6, R8;
spec/30_encoding.md R57, R58; spec/20_memory.md R37). -/

namespace Sys2Proof.Machine

/-- `sext_N(v)`: bits 15 down to N of the result are all bit N-1 of `v`. Used with N = 5, 6, 9, 11 (R57). -/
def sext {n : Nat} (v : BitVec n) : Word := v.signExtend 16

/-- `zext_8(b)`: bits 15 to 8 of the result are 0 (R58). -/
def zext8 (b : Byte) : Word := b.setWidth 16

/-- The "high byte" of a word, `w[15:8]` (R37). -/
def hiByte (w : Word) : Byte := w.extractLsb' 8 8

/-- The "low byte" of a word, `w[7:0]` (R37). -/
def loByte (w : Word) : Byte := w.extractLsb' 0 8

/-- The word of two bytes, the higher one first: `hi * 256 + lo` (R37, R196). -/
def wordOfBytes (hi lo : Byte) : Word := hi ++ lo

end Sys2Proof.Machine
end

