-- ==== Sys2Proof/Config.lean ====
section
/-! DEFINITION. What the spec leaves open, as constants without a value: the two console texts and the
environment's free draws. None of them has a body, so nothing can be proved about its value, and a
theorem that mentions one holds whatever it is. -/

namespace Sys2Proof

/-- `HALT_NOTICE`, what the HALT service emits: a finite byte string the spec leaves open
(spec/00_scope.md R5, spec/44_trap.md R126; log entry 15). -/
opaque Config.haltNotice : List Byte

/-- `IN_PROMPT`, what the IN service emits before it reads: a finite byte string the spec leaves open
(spec/00_scope.md R5, spec/44_trap.md R124; log entry 15). -/
opaque Config.inPrompt : List Byte

/-- The answer of a keyboard poll for which `State.polls` lays down none: a free value for each draw
(spec/50_interfaces.md R152: "a model must admit both answers at every call"; log entry 9). -/
opaque Config.kbdReady : Nat → Bool

/-- Whether the environment supplies a byte to a blocking read that finds `State.input` empty: a free
value for each draw (spec/50_interfaces.md R153, spec/40_execution_cycle.md R76; log entry 10). -/
opaque Config.kbdArrives : Nat → Bool

/-- The byte the environment supplies when a read is due one and `State.input` is empty: a free value
for each draw (spec/50_interfaces.md R153; log entry 10). -/
opaque Config.kbdByte : Nat → Byte

/-- How many more polls of the keyboard find a key, in a row, when PUTS or PUTSP has read all of memory without
a zero word: `some k` means `k` polls and then one that finds none, `none` means every one, with bytes
other than 0, for ever. A free value for each draw (spec/44_trap.md R128, spec/50_interfaces.md R152;
log entry 12). -/
opaque Config.kbdRun : Nat → Option Nat

end Sys2Proof
end

