-- ==== Sys2Proof/Machine/State.lean ====
section
/-! DEFINITION. The state of the machine (spec/10_state.md R10 to R23), the reasons a step can stop, and the
state after reset. -/

namespace Sys2Proof.Machine

/-- The condition-flag register: "exactly one of three mutually exclusive flag bits at any time" (R14).
The three bits it stands for are `Cond.bits` in Machine/Flags.lean (R15). -/
inductive Cond where
  | neg
  | zero
  | pos
deriving DecidableEq, Repr

/-- The memory: byte cells, strictly rising, none of them 0, because an unlisted cell reads as 0 (R21).
The block addresses 16-bit words; word `a` lies in cells `2 * a` (bits 15 to 8) and `2 * a + 1`
(bits 7 to 0), an order no instruction can observe (R37; log entry 7). -/
abbrev Memory := List Host.Cell

/-- The TRAP service of a step that holds until a byte arrives (spec/40_execution_cycle.md R76; log entry 11). The
model's own: the spec gives a held step no state. -/
inductive Held where
  /-- GETC waits for a byte (R121, R76). -/
  | getc
  /-- IN has emitted its prompt and waits for a byte (R124, R76). -/
  | input
deriving DecidableEq, Repr

/-- The state. The first seven fields are the block's (R10 to R22). `input` and `output` are the
environment's two byte streams (spec/50_interfaces.md R150), and the last four are the model's own. -/
structure State where
  /-- `x[0]` to `x[7]` (R10). -/
  regs : Vector Word 8
  /-- The program counter (R12). -/
  pc : Word
  /-- The condition-flag register (R14). -/
  cond : Cond
  /-- The running flag (R18). -/
  running : Bool
  /-- The fault latch (R19). -/
  fault : Bool
  /-- The fault record `fault_ir`, meaningful only while `fault` is set (R19). -/
  faultIr : Word
  /-- The 65,536 words of memory, the keyboard registers among them (R20, R35, R36). -/
  mem : Memory
  /-- The bytes supplied and not yet consumed, oldest first (R150, R153). -/
  input : List Byte
  /-- The bytes emitted so far, oldest first (R150, R155). -/
  output : List Byte
  /-- The answers the environment has laid down for the next polls, oldest first (R152; log entry 9). -/
  polls : List Bool
  /-- How many free values have been drawn from Config (log entries 9, 10 and 12). -/
  draws : Nat
  /-- How many bytes of `output` a flush has made visible (R156; log entry 16). -/
  flushed : Nat
  /-- The service of a step that holds, if one does (R76; log entry 11). -/
  held : Option Held
deriving DecidableEq, Repr

/-- Why a machine has no next state: it is in the state that the block's one exception leaves
(spec/60_exceptions.md R170), or in a step that never ends. -/
inductive Fault where
  /-- Raised by `step` on a Faulted machine, one whose last step executed RTI or RES and set `fault`
  (R70, R171): no step is ever enabled again. Safe: the machine stops too. -/
  | reservedOpcode
  /-- Raised by PUTS and PUTSP, a stuck step: no word they read is ever zero, so "the loop never ends, the step
  never completes", and the step has no successor state (spec/44_trap.md R128, the spec's decision D18;
  log entry 12). The machine is neither Halted nor Faulted. Safe: the block takes no further step. -/
  | stringNeverEnds
deriving DecidableEq, Repr

/-- What the model gives no meaning. No step of the machine is refused: the two launch refusals are
raised by the loader, before the machine runs. -/
inductive Refusal where
  /-- Raised by an arm of `exec` whose instruction has no meaning yet: no arm of this model. Safe. -/
  | notModelled (mnemonic : String)
  /-- Raised by `loadImage` on an image shorter than two bytes, which has no origin
  (spec/70_reset_and_hazards.md R199, "refused"). Safe. -/
  | imageTooShort
  /-- Raised by `loadImages` on an image that cannot be opened: "loading failure for any image is fatal"
  (R199). Safe: the block never runs. -/
  | imageNotOpened
deriving DecidableEq, Repr

/-- What a meaning and a step answer. -/
abbrev Result := Host.Outcome State Fault Refusal

/-- The machine right after reset, before the first image is loaded (R23, R191). `faultIr`, and the fields
that are not the block's, have values the log names (entries 4, 9, 10, 11, 16, 20). -/
def State.reset : State where
  regs := Vector.replicate 8 Param.gprReset
  pc := Param.pcReset
  cond := .zero
  running := true
  fault := false
  faultIr := 0
  mem := []
  input := []
  output := []
  polls := []
  draws := 0
  flushed := 0
  held := none

end Sys2Proof.Machine
end

