-- ==== Sys2Proof/Machine/Memory.lean ====
section
/-! DEFINITION. The raw storage `mem[a]` (spec/10_state.md R20, R21): reading and writing one byte cell and
one word, with no interception, and the canonical form that every write keeps. -/

namespace Sys2Proof.Machine

/-- What an unlisted cell reads as: every word is 0x0000 at machine creation (R21). -/
def Memory.unlisted : Byte := 0

/-- The number of byte cells: two for each of the 65,536 words (R20). -/
def Memory.cells : Nat := 0x20000

/-- The canonical form: cells strictly rising, inside the address space, none equal to what an unlisted
cell reads as. Memories in this form that read alike are equal. -/
abbrev Memory.wf (m : Memory) : Prop :=
  m.Pairwise (fun c d => c.1 < d.1) ∧ ∀ c ∈ m, c.1 < Memory.cells ∧ c.2 ≠ Memory.unlisted

/-- The byte in cell `k`. -/
def Memory.readByte : Memory → Nat → Byte
  | [], _ => Memory.unlisted
  | (j, b) :: rest, k => if j = k then b else Memory.readByte rest k

/-- Put the byte `b`, which no unlisted cell reads as, into cell `k`. -/
def Memory.putByte : Memory → Nat → Byte → Memory
  | [], k, b => [(k, b)]
  | (j, c) :: rest, k, b =>
    if j = k then (k, b) :: rest
    else if k < j then (k, b) :: (j, c) :: rest
    else (j, c) :: Memory.putByte rest k b

/-- Write the byte `b` to cell `k`: a byte that an unlisted cell reads as leaves no entry. -/
def Memory.writeByte (m : Memory) (k : Nat) (b : Byte) : Memory :=
  if b = Memory.unlisted then m.filter (fun c => c.1 ≠ k) else Memory.putByte m k b

/-- The cell of the high byte of word `a`; the low byte is in the next (log entry 7). -/
def cellOf (a : Word) : Nat := 2 * a.toNat

/-- `mem[a]`, the raw storage word at address `a` (R20). -/
def Memory.readWord (m : Memory) (a : Word) : Word :=
  wordOfBytes (m.readByte (cellOf a)) (m.readByte (cellOf a + 1))

/-- `mem[a] <- v` (R20). -/
def Memory.writeWord (m : Memory) (a v : Word) : Memory :=
  (m.writeByte (cellOf a) (hiByte v)).writeByte (cellOf a + 1) (loByte v)

end Sys2Proof.Machine
end

