-- ==== Sys2Proof/Machine/Ops.lean ====
section
/-! DEFINITION. The named operations of the rules (spec/00_scope.md R8): registers, program counter, memory
access layer, keyboard, console, the one exception, and the hold of a step that cannot complete. -/

namespace Sys2Proof.Machine

/-! ### Registers -/

/-- `x[i]` (spec/10_state.md R10: no register is hardwired, banked or aliased). -/
def readReg (i : Reg) (s : State) : Word := s.regs[i]

/-- `x[i] <- v` (R10). -/
def writeReg (i : Reg) (v : Word) (s : State) : State := { s with regs := s.regs.set i v }

/-- `pc <- target` (spec/10_state.md R12). -/
def setPc (target : Word) (s : State) : State := { s with pc := target }

/-- `x[7] <- pc`, the save of JSR, JSRR and TRAP (spec/42_control.md R96). During the execute phase `pc` is
the address of the instruction plus 1. No flag is set (spec/10_state.md R17). -/
def saveLink (s : State) : State := writeReg Param.link s.pc s

/-! ### The keyboard (spec/50_interfaces.md R152 to R154) -/

/-- `KbdAvail()`: one poll. It consumes no input byte. The answer is the environment's: the next one laid
down in `polls`, else a free value (R152; log entry 9). -/
def kbdAvail (s : State) : Bool × State :=
  match s.polls with
  | a :: rest => (a, { s with polls := rest })
  | [] => (Config.kbdReady s.draws, { s with draws := s.draws + 1 })

/-- `KbdRead()` right after a poll that answered true, which "does not block" (R154): the first byte of
`input`, or, where none has been laid down, the byte the environment must then have supplied, a free
value (log entry 10). -/
def kbdTake (s : State) : Byte × State :=
  match s.input with
  | b :: rest => (b, { s with input := rest })
  | [] => (Config.kbdByte s.draws, { s with draws := s.draws + 1 })

/-- `KbdRead()` as GETC and IN call it: blocking. Where `input` is empty, a free value says whether the
environment supplies a byte now, and another which; `none` means that the step holds (R153;
spec/40_execution_cycle.md R76; log entries 10 and 11). -/
def kbdRead (s : State) : Option Byte × State :=
  match s.input with
  | b :: rest => (some b, { s with input := rest })
  | [] =>
    (if Config.kbdArrives s.draws then some (Config.kbdByte s.draws) else none,
      { s with draws := s.draws + 1 })

/-- The environment lays down how the polls go on when a string service has read all of memory and found no zero
word: after the answers already laid down, `k` more polls find a key and the next does not, or every poll
finds one for ever, of which as many are laid down as there are pending bytes (log entry 12). -/
def layPolls (s : State) : State :=
  { s with
    polls := s.polls ++
      (match Config.kbdRun s.draws with
      | some k => List.replicate k true ++ [false]
      | none => List.replicate (s.input.length - s.polls.length) true)
    draws := s.draws + 1 }

/-! ### The memory access layer (spec/20_memory.md R30 to R33) -/

/-- `MemWrite(a, 1, v)`: "stores `value` at `address` unconditionally; no interception on write" (R33). -/
def memWrite (a v : Word) (s : State) : State := { s with mem := s.mem.writeWord a v }

/-- The interception of a read of `KBSR` (R31): one poll, then the status write, then, when a key is
available, one byte read into `KBDR`. The status write is the assignment of 0x8000 (log entry 5: the
spec's decision D4). -/
def pollKeyboard (s : State) : State :=
  let poll := kbdAvail s
  if poll.1 then
    let key := kbdTake (memWrite Param.kbsr 0x8000 poll.2)
    memWrite Param.kbdr (zext8 key.1) key.2
  else memWrite Param.kbsr 0x0000 poll.2

/-- `MemRead(a, 1)`: the stored word, after the interception when `a` is `KBSR` and at no other address
(R31, R32). -/
def memRead (a : Word) (s : State) : Word × State :=
  let t := if a = Param.kbsr then pollKeyboard s else s
  (t.mem.readWord a, t)

/-- The fetch of one instruction (spec/40_execution_cycle.md R71, R72, R77): an ordinary `MemRead` at `pc`,
interception included, then the increment of `pc` modulo 2^16. -/
def fetch (s : State) : Word × State :=
  ((memRead s.pc s).1, setPc (s.pc + 1) (memRead s.pc s).2)

/-! ### The console (spec/50_interfaces.md R155, R156) -/

/-- `ConOut(b)` for each byte of a string, in order (R155). -/
def conOut (bs : List Byte) (s : State) : State := { s with output := s.output ++ bs }

/-- `ConFlush()`: every byte emitted so far is made visible; the byte sequence does not change (R156; log
entry 16). -/
def conFlush (s : State) : State := { s with flushed := s.output.length }

/-! ### The exception and the hold -/

/-- `raise ReservedOpcode(ir)` (spec/60_exceptions.md R171): the latch is set and the instruction word
recorded; nothing else changes, and `pc` keeps the incremented value. There is no handler, no vector and
no return (R171, R180). -/
def raiseReservedOpcode (ir : Word) (s : State) : State := { s with fault := true, faultIr := ir }

/-- A step that cannot complete counts as not taken (spec/40_execution_cycle.md R76): the fetch increment
is undone, and `held` says what the next step goes on with (log entry 11). -/
def hold (h : Held) (s : State) : State := { s with pc := s.pc - 1, held := some h }

/-- A service that completes: no step is held any longer. -/
def complete (s : State) : State := { s with held := none }

end Sys2Proof.Machine
end

