-- ==== Sys2Proof/Machine/Flags.lean ====
section
/-! DEFINITION. The condition flags (spec/10_state.md R14 to R17): their bits, `setcc`, and BR's test. -/

namespace Sys2Proof.Machine

/-- The three flag bits, in the places of BR's `ir[11:9]`: `FL_N` is 0b100, `FL_Z` is 0b010, `FL_P` is 0b001
(R15; log entry 2: the spec's decision D2). -/
def Cond.bits : Cond → BitVec 3
  | .neg => 0b100
  | .zero => 0b010
  | .pos => 0b001

/-- The flag of a value: ZERO if it is 0, NEGATIVE if bit 15 is set, else POSITIVE (R16). -/
def condOf (v : Word) : Cond :=
  if v = 0 then .zero else if v.getLsbD 15 then .neg else .pos

/-- `setcc(i)`: `cond` from the current value of `x[i]` (R16). Called after the destination write of the same
instruction, by the instructions R17 lists and no other. -/
def setcc (i : Reg) (s : State) : State := { s with cond := condOf (readReg i s) }

/-- Write a destination register and set the flags from it, the two last lines of every instruction that
"defines a destination register's value" (R17). -/
def defineReg (dr : Reg) (v : Word) (s : State) : State := setcc dr (writeReg dr v s)

/-- BR's test `(ir[11:9] & cond) != 0b000` (spec/42_control.md R90). -/
def branchTaken (nzp : BitVec 3) (s : State) : Bool := nzp &&& s.cond.bits ≠ 0

end Sys2Proof.Machine
end

