-- ==== Sys2Proof/Machine/Operands.lean ====
section
/-! DEFINITION. How operands are formed (spec/30_encoding.md R59, spec/43_load_store.md R107): the second
operand of ADD and AND, and the effective addresses. Every sum is modulo 2^16 and no mode changes a
register (R107). -/

namespace Sys2Proof.Machine

/-- The second operand of ADD and AND, register form: `x[SR2]`. -/
def regOperand (sr2 : Reg) (s : State) : Word := readReg sr2 s

/-- The second operand of ADD and AND, immediate form: `sext_5(imm5)`. No register is read. -/
def immOperand (imm : BitVec 5) : Word := sext imm

/-- The PC-relative address of LD, LDI, LEA, ST, STI and the target of a taken BR: `pc + sext_9(PCoffset9)`,
with the post-fetch `pc` (spec/40_execution_cycle.md R72). -/
def pcRelative (off : BitVec 9) (s : State) : Word := s.pc + sext off

/-- The target of JSR: `pc + sext_11(offset11)`. -/
def longTarget (off : BitVec 11) (s : State) : Word := s.pc + sext off

/-- The base + offset address of LDR and STR: `x[BaseR] + sext_6(offset6)`. -/
def baseOffset (base : Reg) (off : BitVec 6) (s : State) : Word := readReg base s + sext off

/-- The pointer of LDI and STI: the word at the PC-relative address, read through the memory access
layer, with the state that read leaves (spec/20_memory.md R34). -/
def pointer (off : BitVec 9) (s : State) : Word × State := memRead (pcRelative off s) s

end Sys2Proof.Machine
end

