-- ==== Sys2Proof/Machine/Alu.lean ====
section
/-! DEFINITION. ADD, AND and NOT (spec/41_alu.md R80 to R85). Sources are read before DR is written; sums
wrap modulo 2^16, with no carry, overflow or trap. -/

namespace Sys2Proof.Machine

/-- ADD, register form (R80). -/
def execAdd (dr sr1 sr2 : Reg) (s : State) : Result :=
  .next (defineReg dr (readReg sr1 s + regOperand sr2 s) s)

/-- ADD, immediate form (R81). -/
def execAddImm (dr sr1 : Reg) (imm : BitVec 5) (s : State) : Result :=
  .next (defineReg dr (readReg sr1 s + immOperand imm) s)

/-- AND, register form (R82). -/
def execAnd (dr sr1 sr2 : Reg) (s : State) : Result :=
  .next (defineReg dr (readReg sr1 s &&& regOperand sr2 s) s)

/-- AND, immediate form: the immediate is sign-extended exactly as for ADD (R83, R85). -/
def execAndImm (dr sr1 : Reg) (imm : BitVec 5) (s : State) : Result :=
  .next (defineReg dr (readReg sr1 s &&& immOperand imm) s)

/-- NOT (R84). -/
def execNot (dr sr1 : Reg) (s : State) : Result :=
  .next (defineReg dr (~~~(readReg sr1 s)) s)

end Sys2Proof.Machine
end

