-- ==== Sys2Proof/Machine/Control.lean ====
section
/-! DEFINITION. BR, JMP, JSR and JSRR (spec/42_control.md R90 to R97). None of them accesses memory or
changes `cond`; none can raise an exception. -/

namespace Sys2Proof.Machine

/-- BR (R90): `pc` moves when the test holds, and keeps the incremented value when it does not. -/
def execBr (nzp : BitVec 3) (off : BitVec 9) (s : State) : Result :=
  .next (if branchTaken nzp s then setPc (pcRelative off s) s else s)

/-- JMP, and RET when `base` is 7 (R92, R93). -/
def execJmp (base : Reg) (s : State) : Result :=
  .next (setPc (readReg base s) s)

/-- JSR (R94): the link is written, then `pc` moves. -/
def execJsr (off : BitVec 11) (s : State) : Result :=
  .next (setPc (longTarget off (saveLink s)) (saveLink s))

/-- JSRR (R95): the link is written first, and the base register is read after that, so `JSRR R7` falls
through. -/
def execJsrr (base : Reg) (s : State) : Result :=
  .next (setPc (readReg base (saveLink s)) (saveLink s))

end Sys2Proof.Machine
end

