-- ==== Sys2Proof/Machine/LoadStore.lean ====
section
/-! DEFINITION. LD, LDI, LDR, LEA, ST, STI and STR (spec/43_load_store.md R100 to R107). The accesses are those
of spec/20_memory.md R34, in its order; no address is special-cased outside `memRead`. -/

namespace Sys2Proof.Machine

/-- `x[DR] <- MemRead(ea, 1); setcc(DR)`, the end of every load. -/
def loadInto (dr : Reg) (ea : Word) (s : State) : State :=
  defineReg dr (memRead ea s).1 (memRead ea s).2

/-- LD (R100). -/
def execLd (dr : Reg) (off : BitVec 9) (s : State) : Result :=
  .next (loadInto dr (pcRelative off s) s)

/-- LDI (R101): the pointer read, then the data read, both through the memory access layer. -/
def execLdi (dr : Reg) (off : BitVec 9) (s : State) : Result :=
  .next (loadInto dr (pointer off s).1 (pointer off s).2)

/-- LDR (R102): the address is formed before DR is written. -/
def execLdr (dr base : Reg) (off : BitVec 6) (s : State) : Result :=
  .next (loadInto dr (baseOffset base off s) s)

/-- LEA (R103): the address itself, with no memory access; the flags are set. -/
def execLea (dr : Reg) (off : BitVec 9) (s : State) : Result :=
  .next (defineReg dr (pcRelative off s) s)

/-- ST (R104). -/
def execSt (sr : Reg) (off : BitVec 9) (s : State) : Result :=
  .next (memWrite (pcRelative off s) (readReg sr s) s)

/-- STI (R105): the pointer read, through the memory access layer, then the store. -/
def execSti (sr : Reg) (off : BitVec 9) (s : State) : Result :=
  .next (memWrite (pointer off s).1 (readReg sr (pointer off s).2) (pointer off s).2)

/-- STR (R106). -/
def execStr (sr base : Reg) (off : BitVec 6) (s : State) : Result :=
  .next (memWrite (baseOffset base off s) (readReg sr s) s)

end Sys2Proof.Machine
end

