-- ==== Sys2Proof/Machine/Reserved.lean ====
section
/-! DEFINITION. RTI and RES, the two unimplemented opcodes (spec/45_reserved.md R140 to R142): each raises the
block's one exception with its own instruction word. The entry is a next state, in which the machine is
Faulted. -/

namespace Sys2Proof.Machine

/-- RTI (R140). -/
def execRti (low : BitVec 12) (s : State) : Result :=
  .next (raiseReservedOpcode (encode (.rti low)) s)

/-- RES (R141). -/
def execRes (low : BitVec 12) (s : State) : Result :=
  .next (raiseReservedOpcode (encode (.res low)) s)

end Sys2Proof.Machine
end

