-- ==== Sys2Proof/Machine/Trap.lean ====
section
/-! DEFINITION. TRAP (spec/44_trap.md R120 to R129): the link is saved for every vector, then the service runs
inside the same step. No vector table is read, `pc` does not move, and no vector raises an exception. -/

namespace Sys2Proof.Machine

/-- `x[0] <- zext_8(c); setcc(0)`, the result of GETC and IN (R121, R124; log entry 14). -/
def putKey (c : Byte) (s : State) : State := defineReg Param.trapArg (zext8 c) s

/-- GETC (R121): without a byte the step holds (spec/40_execution_cycle.md R76). -/
def execTrapGetc (s : State) : Result :=
  .next
    (match (kbdRead s).1 with
    | some c => complete (putKey c (saveLink (kbdRead s).2))
    | none => hold .getc (kbdRead s).2)

/-- OUT (R122): the low byte of `x[0]`. -/
def execTrapOut (s : State) : Result :=
  .next (conFlush (conOut [loByte (readReg Param.trapArg s)] (saveLink s)))

/-- One pass of the loop of PUTS and PUTSP: read words from `a` on through the memory access layer, emitting
`emit w` for each, until a zero word is read or `n` words have been (R123, R125; log entry 13). The answer
says whether a zero word was read. -/
def stringPass (emit : Word → List Byte) : Nat → Word → State → Bool × State
  | 0, _, s => (false, s)
  | n + 1, a, s =>
    if (memRead a s).1 = 0 then (true, (memRead a s).2)
    else stringPass emit n (a + 1) (conOut (emit (memRead a s).1) (memRead a s).2)

/-- The number of words of memory, and of reads in one pass (R128: "at most 65,536 reads per pass"). A pass that
reads them all is back at the address it began at. -/
def passLength : Nat := 65536

/-- The loop of PUTS and PUTSP from `a` on, up to the poll after the next `n`: `n` passes over all of memory, with
one poll each, then the words that come before `KBSR` again. The byte that the last of the `n` polls stored in
`KBDR` has then been read back, wherever the string begins. The answer says whether a zero word was read. -/
def stringPasses (emit : Word → List Byte) : Nat → Word → State → Bool × State
  | 0, a, s => stringPass emit (Param.kbsr - a).toNat a s
  | n + 1, a, s =>
    match stringPass emit passLength a s with
    | (true, t) => (true, t)
    | (false, t) => stringPasses emit n a t

/-- The body of PUTS and PUTSP (R123, R125). A first pass finds a zero word, unless every word was non-zero when
it was read. In that case the environment lays down how its keyboard goes on, and the loop goes on through all
polls laid down: it ends at the first zero word, and a poll that finds no key makes one at `KBSR`. Where every
later poll finds a key whose byte is not 0, for ever, no word read later is zero, and the step has no
successor state (R128, the spec's decision D18; log entry 12). -/
def stringService (emit : Word → List Byte) (s : State) : Result :=
  match stringPass emit passLength (readReg Param.trapArg s) (saveLink s) with
  | (true, t) => .next (conFlush t)
  | (false, t) =>
    match stringPasses emit (layPolls t).polls.length (readReg Param.trapArg s) (layPolls t) with
    | (true, u) => .next (conFlush u)
    | (false, _) => .fault .stringNeverEnds

/-- What PUTS emits for a word: one character, the low byte (R123). -/
def putsBytes (w : Word) : List Byte := [loByte w]

/-- What PUTSP emits for a word: the low byte always, then the high byte if it is not zero (R125). -/
def putspBytes (w : Word) : List Byte :=
  loByte w :: (if hiByte w = 0 then [] else [hiByte w])

/-- PUTS (R123). -/
def execTrapPuts (s : State) : Result := stringService putsBytes s

/-- PUTSP (R125). -/
def execTrapPutsp (s : State) : Result := stringService putspBytes s

/-- IN's prompt, emitted once: not again when a step held after it goes on (R124; spec/90_conflicts.md C11). -/
def promptOnce (s : State) : State :=
  if s.held = some .input then s else conOut Config.inPrompt s

/-- IN (R124): prompt, blocking read, echo, result, flush. Without a byte the step holds, the prompt already
emitted. -/
def execTrapIn (s : State) : Result :=
  .next
    (match (kbdRead (promptOnce s)).1 with
    | some c => complete (conFlush (putKey c (conOut [c] (saveLink (kbdRead (promptOnce s)).2))))
    | none => hold .input (kbdRead (promptOnce s)).2)

/-- HALT (R126): the notice, the flush, and `running` cleared. -/
def execTrapHalt (s : State) : Result :=
  .next { conFlush (conOut Config.haltNotice (saveLink s)) with running := false }

/-- Any other vector (R127): the link is written and nothing else, whatever the vector. -/
def execTrapOther (s : State) : Result := .next (saveLink s)

/-- The instruction a held step goes on with. -/
def heldInstr : Held → Instr
  | .getc => .trapGetc
  | .input => .trapIn

/-- How a held step goes on (spec/40_execution_cycle.md R76): the word was fetched when the step began and is
not fetched again; the increment of `pc`, undone by the hold, is made again. -/
def resume (s : State) : State := setPc (s.pc + 1) s

end Sys2Proof.Machine
end

