-- ==== Sys2Proof/Machine/Step.lean ====
section
/-! DEFINITION. The execution cycle (spec/40_execution_cycle.md R70, R71). -/

namespace Sys2Proof.Machine

/-- One step. It is enabled only while the machine is Running (R70): a Faulted machine answers the fault it
is in, "never a final state of a successful run" (spec/60_exceptions.md R171), and a Halted machine keeps
its state, which the host may read for ever (R70, R78; log entry 17). A Running machine fetches,
increments `pc`, decodes and dispatches (R71), or goes on with the step it holds (R76). -/
def step (s : State) : Host.Outcome State Fault Refusal :=
  if s.fault then .fault .reservedOpcode
  else if s.running then
    match s.held with
    | none => exec (decode (fetch s).1) (fetch s).2
    | some h => exec (heldInstr h) (resume s)
  else .next s

/-- `s` with the word `w` (its low `nbits` bits) as the next instruction: stored raw at `pc`, as the loader
stores (spec/70_reset_and_hazards.md R195), in a machine that is Running and holds no step, so that the
very next step fetches it. At `pc` = 0xFE00 no stored word is ever fetched (R77). -/
def State.withFetchWord (s : State) (nbits w : Nat) : State :=
  { s with
    mem := s.mem.writeWord s.pc (BitVec.ofNat 16 (w % 2 ^ nbits))
    running := true
    fault := false
    held := none }

end Sys2Proof.Machine
end

