-- ==== Sys2Proof/Machine/HostSide.lean ====
section
/-! DEFINITION. What the host and the environment do to the machine between steps (spec/50_interfaces.md R150,
R157, R158; spec/70_reset_and_hazards.md R190 to R199): reset, image loading before the first step, input
bytes, and the status outputs. -/

namespace Sys2Proof.Machine

/-- The reset event (R190): every piece of the block's state takes its reset value, memory included. The
environment's streams are not the block's and are left (R191; log entry 20). -/
def resetBlock (s : State) : State :=
  { State.reset with
    input := s.input, output := s.output, polls := s.polls, draws := s.draws, flushed := s.flushed }

/-- The words of an image's payload, high byte first; an odd trailing byte is ignored (R196, R199). -/
def payloadWords : List Byte → List Word
  | hi :: lo :: rest => wordOfBytes hi lo :: payloadWords rest
  | _ => []

/-- Store words from address `a` on, as raw writes; what would lie past 0xFFFF is discarded (R197, R198). -/
def loadWords : Nat → List Word → Memory → Memory
  | _, [], m => m
  | a, w :: ws, m =>
    if a < 0x10000 then loadWords (a + 1) ws (m.writeWord (BitVec.ofNat 16 a) w) else m

/-- `LoadImage` (R197): the first word is the origin, the rest is the payload. Only memory changes. An image
with no origin word is refused (R199; log entry 18). -/
def loadImage (image : List Byte) (s : State) : Result :=
  match image with
  | hi :: lo :: payload =>
    .next { s with mem := loadWords (wordOfBytes hi lo).toNat (payloadWords payload) s.mem }
  | _ => .refused .imageTooShort

/-- Several images, in the order supplied; `none` is an image that cannot be opened, and any failure stops
the launch (R199; log entry 18). -/
def loadImages : List (Option (List Byte)) → State → Result
  | [], s => .next s
  | none :: _, _ => .refused .imageNotOpened
  | some image :: rest, s =>
    match loadImage image s with
    | .next t => loadImages rest t
    | .fault f => .fault f
    | .refused r => .refused r

/-- The start state of a run: reset, then the images (R190, R195). `pc` is 0x3000 whatever the origins. -/
def launch (images : List (Option (List Byte))) : Result := loadImages images State.reset

/-- The environment supplies bytes, at any time between two steps (R150). -/
def supplyInput (bs : List Byte) (s : State) : State := { s with input := s.input ++ bs }

/-- The run states (spec/40_execution_cycle.md R70). Loading, the time before the first step, is no state of
its own: nothing tells it from Running but that no step has been taken (log entry 18). -/
inductive RunState where
  | running
  | halted
  | faulted
deriving DecidableEq, Repr

/-- What the status outputs `running` and `fault` tell the host (R157). -/
def runState (s : State) : RunState :=
  if s.fault then .faulted else if s.running then .running else .halted

end Sys2Proof.Machine
end

