-- ==== Sys2Proof/Safety.lean ====
section
/-! DEFINITION. The terms that statements use: what two states have in common, the flag rule in the spec's
own words, and the invariant of a machine started from reset. -/

namespace Sys2Proof.Machine

/-- Every byte of memory reads alike. -/
def SameMemory (s t : State) : Prop := ∀ k : Nat, t.mem.readByte k = s.mem.readByte k

/-- Every byte of memory outside word `a` reads alike. -/
def SameMemoryBut (a : Word) (s t : State) : Prop :=
  ∀ k : Nat, k / 2 ≠ a.toNat → t.mem.readByte k = s.mem.readByte k

/-- Every general register is alike. -/
def SameRegs (s t : State) : Prop := ∀ r : Reg, readReg r t = readReg r s

/-- Every general register but `d` is alike. -/
def SameRegsBut (d : Reg) (s t : State) : Prop := ∀ r : Reg, r ≠ d → readReg r t = readReg r s

/-- The running flag, the fault latch and record, and the hold are alike. -/
def SameControl (s t : State) : Prop :=
  t.running = s.running ∧ t.fault = s.fault ∧ t.faultIr = s.faultIr ∧ t.held = s.held

/-- Nothing was consumed from the keyboard and no poll was made. -/
def SameKeyboard (s t : State) : Prop := t.input = s.input ∧ t.polls = s.polls ∧ t.draws = s.draws

/-- Nothing was emitted and nothing flushed. -/
def SameConsole (s t : State) : Prop := t.output = s.output ∧ t.flushed = s.flushed

/-- Everything but the general registers, `pc` and `cond` is alike. -/
def SameRest (s t : State) : Prop :=
  SameMemory s t ∧ SameControl s t ∧ SameKeyboard s t ∧ SameConsole s t

/-- What one read of address `a` may do to memory and to the keyboard (spec/20_memory.md R31, R32): nothing,
unless `a` is `KBSR`, and then no byte changes but those of the two keyboard words. -/
def ReadEffect (a : Word) (s t : State) : Prop :=
  (a ≠ Param.kbsr → SameMemory s t ∧ SameKeyboard s t) ∧
    ∀ k : Nat, k / 2 ≠ Param.kbsr.toNat → k / 2 ≠ Param.kbdr.toNat →
      t.mem.readByte k = s.mem.readByte k

/-- The instruction that the next step of a Running machine executes (spec/40_execution_cycle.md R71, R76). -/
def executed (s : State) : Instr :=
  match s.held with
  | none => decode (fetch s).1
  | some h => heldInstr h

/-- The register from which an instruction sets `cond`, or none: the list of callers of `setcc` in
spec/10_state.md R17. -/
def flagSource : Instr → Option Reg
  | .br _ _ => none
  | .add dr _ _ => some dr
  | .addImm dr _ _ => some dr
  | .ld dr _ => some dr
  | .st _ _ => none
  | .jsr _ => none
  | .jsrr _ => none
  | .and dr _ _ => some dr
  | .andImm dr _ _ => some dr
  | .ldr dr _ _ => some dr
  | .str _ _ _ => none
  | .rti _ => none
  | .not dr _ => some dr
  | .ldi dr _ => some dr
  | .sti _ _ => none
  | .jmp _ => none
  | .res _ => none
  | .lea dr _ => some dr
  | .trapGetc => some Param.trapArg
  | .trapOut => none
  | .trapPuts => none
  | .trapIn => some Param.trapArg
  | .trapPutsp => none
  | .trapHalt => none
  | .trapOther _ => none

/-- The mask and the match of an instruction's row, as spec/opcode_table.json gives them. -/
def tableRow : Instr → Word × Word
  | .br _ _ => (0xF000, 0x0000)
  | .add _ _ _ => (0xF020, 0x1000)
  | .addImm _ _ _ => (0xF020, 0x1020)
  | .ld _ _ => (0xF000, 0x2000)
  | .st _ _ => (0xF000, 0x3000)
  | .jsr _ => (0xF800, 0x4800)
  | .jsrr _ => (0xF800, 0x4000)
  | .and _ _ _ => (0xF020, 0x5000)
  | .andImm _ _ _ => (0xF020, 0x5020)
  | .ldr _ _ _ => (0xF000, 0x6000)
  | .str _ _ _ => (0xF000, 0x7000)
  | .rti _ => (0xF000, 0x8000)
  | .not _ _ => (0xF000, 0x9000)
  | .ldi _ _ => (0xF000, 0xA000)
  | .sti _ _ => (0xF000, 0xB000)
  | .jmp _ => (0xF000, 0xC000)
  | .res _ => (0xF000, 0xD000)
  | .lea _ _ => (0xF000, 0xE000)
  | .trapGetc => (0xF0FF, 0xF020)
  | .trapOut => (0xF0FF, 0xF021)
  | .trapPuts => (0xF0FF, 0xF022)
  | .trapIn => (0xF0FF, 0xF023)
  | .trapPutsp => (0xF0FF, 0xF024)
  | .trapHalt => (0xF0FF, 0xF025)
  | .trapOther _ => (0xF000, 0xF000)

/-- The bits of an instruction's word that no rule reads (spec/30_encoding.md R56). The low bits of RTI and
RES are ignored in execution and recorded by the fault, so they are not among them. -/
def ignoredBits : Instr → Word
  | .br _ _ => 0x0000
  | .add _ _ _ => 0x0018
  | .addImm _ _ _ => 0x0000
  | .ld _ _ => 0x0000
  | .st _ _ => 0x0000
  | .jsr _ => 0x0000
  | .jsrr _ => 0x063F
  | .and _ _ _ => 0x0018
  | .andImm _ _ _ => 0x0000
  | .ldr _ _ _ => 0x0000
  | .str _ _ _ => 0x0000
  | .rti _ => 0x0000
  | .not _ _ => 0x003F
  | .ldi _ _ => 0x0000
  | .sti _ _ => 0x0000
  | .jmp _ => 0x0E3F
  | .res _ => 0x0000
  | .lea _ _ => 0x0000
  | .trapGetc => 0x0F00
  | .trapOut => 0x0F00
  | .trapPuts => 0x0F00
  | .trapIn => 0x0F00
  | .trapPutsp => 0x0F00
  | .trapHalt => 0x0F00
  | .trapOther _ => 0x0F00

/-- `c` is the flag of `v`: "ZERO if the value is 0, NEGATIVE if bit 15 is set, else POSITIVE" (R16). -/
def FlagOf (v : Word) (c : Cond) : Prop :=
  (v = 0 → c = .zero) ∧ (v ≠ 0 → v.getLsbD 15 = true → c = .neg) ∧
    (v ≠ 0 → v.getLsbD 15 = false → c = .pos)

/-- The machine is Running (spec/40_execution_cycle.md R70). -/
def Running (s : State) : Prop := s.running = true ∧ s.fault = false

/-- The machine is Halted: the only successful end of a run (R78). -/
def Halted (s : State) : Prop := s.running = false ∧ s.fault = false

/-- The machine is Faulted: never an end of a successful run (R78). -/
def Faulted (s : State) : Prop := s.fault = true

/-- What a step of a machine started from reset keeps: memory is in its canonical form; a faulted machine
has not cleared `running` and its record holds a reserved opcode; a held step belongs to a machine that
is Running. -/
structure Inv (s : State) : Prop where
  memory : s.mem.wf
  faultKeepsRunning : s.fault = true → s.running = true
  faultRecord : s.fault = true →
    (decode s.faultIr).opcode = .rti ∨ (decode s.faultIr).opcode = .res
  heldRuns : s.held ≠ none → s.running = true ∧ s.fault = false

end Sys2Proof.Machine
end

