-- ==== Sys2Proof/Certificates/Slice0/Obligations.lean ====
section
/-! DEFINITION. The statements for the provers. Each docstring names the rule it states; where a clause rests on
a choice of the model or on a decision the spec marks as its own, the docstring says so. Opcode numbers
enter only through `Opcode.code`, the parameter `OPCODE_MAP` of R5, except where a docstring says so. -/

open Sys2Proof Sys2Proof.Machine

/-! ### Reset and stopped states -/

/-- The state after reset, spec/10_state.md section 9 (R23). The zero of the general registers is the spec's
decision D3 and the fault latch its decision D5; `fault_ir` is left unspecified and nothing is said of it.
That nothing has been emitted is the model's choice (log entry 20): spec/70_reset_and_hazards.md R191 has it by
convention of the tests. -/
def Obligations.ResetLeavesSpecState : Prop :=
  (∀ r : Reg, readReg r State.reset = 0x0000) ∧ State.reset.pc = 0x3000 ∧
    State.reset.cond = .zero ∧ State.reset.running = true ∧ State.reset.fault = false ∧
    (∀ a : Word, State.reset.mem.readWord a = 0x0000) ∧ State.reset.output = []

/-- The reset event on any state, spec/70_reset_and_hazards.md section 1 (R190): the block's state is that of
reset, memory included. The zero of the general registers is the spec's decision D3 (log entry 3) and the fault
latch its decision D5 (log entry 6). What the environment holds is left and a held step is dropped, the model's
choice (log entry 20). -/
def Obligations.ResetEventClearsBlock : Prop :=
  ∀ s : State, ∃ t, t = resetBlock s ∧ (∀ r : Reg, readReg r t = 0x0000) ∧ t.pc = 0x3000 ∧
    t.cond = .zero ∧ t.running = true ∧ t.fault = false ∧ t.held = none ∧
    (∀ k : Nat, t.mem.readByte k = 0) ∧ SameKeyboard s t ∧ SameConsole s t

/-- spec/40_execution_cycle.md section 1: no step is taken in Halted, and all state keeps its value; a Faulted
machine answers its fault. That the two answers are an idle step and a fault is the model's choice (log
entry 17); the Faulted state is the spec's decision D5. -/
def Obligations.StoppedMachineTakesNoStep : Prop :=
  ∀ s : State, (Halted s → step s = .next s) ∧ (Faulted s → step s = .fault .reservedOpcode)

/-- spec/40_execution_cycle.md R71: fetch through the memory access layer, increment, decode, dispatch. -/
def Obligations.StepRunsDecodedInstruction : Prop :=
  ∀ s : State, Running s → s.held = none →
    step s = exec (decode (memRead s.pc s).1) (setPc (s.pc + 1) (memRead s.pc s).2) ∧
      (s.pc ≠ Param.kbsr →
        step s = exec (decode (s.mem.readWord s.pc)) { s with pc := s.pc + 1 })

/-- A held step goes on without a fetch (log entry 11: the model's choice of how a hold stands in State;
spec/40_execution_cycle.md, the paragraph on the hold). -/
def Obligations.HeldStepGoesOn : Prop :=
  ∀ (h : Held) (s : State), Running s → s.held = some h →
    step s = exec (heldInstr h) { s with pc := s.pc + 1 }

/-! ### ALU -/

/-- spec/41_alu.md R80, with its format RRR and ignored bits. -/
def Obligations.AddRegisterForm : Prop :=
  ∀ (dr sr1 sr2 : Reg) (ign : BitVec 2) (s : State),
    decode (Opcode.add.code ++ regBits dr ++ regBits sr1 ++ 0b0#1 ++ ign ++ regBits sr2) =
        .add dr sr1 sr2 ∧
    ∃ t, exec (.add dr sr1 sr2) s = .next t ∧
      readReg dr t = readReg sr1 s + readReg sr2 s ∧ FlagOf (readReg dr t) t.cond ∧
      SameRegsBut dr s t ∧ t.pc = s.pc ∧ SameRest s t

/-- spec/41_alu.md R81, with its format RRI. -/
def Obligations.AddImmediateForm : Prop :=
  ∀ (dr sr1 : Reg) (imm : BitVec 5) (s : State),
    decode (Opcode.add.code ++ regBits dr ++ regBits sr1 ++ 0b1#1 ++ imm) = .addImm dr sr1 imm ∧
    ∃ t, exec (.addImm dr sr1 imm) s = .next t ∧
      readReg dr t = readReg sr1 s + sext imm ∧ FlagOf (readReg dr t) t.cond ∧
      SameRegsBut dr s t ∧ t.pc = s.pc ∧ SameRest s t

/-- spec/41_alu.md R82, with its format RRR and ignored bits. -/
def Obligations.AndRegisterForm : Prop :=
  ∀ (dr sr1 sr2 : Reg) (ign : BitVec 2) (s : State),
    decode (Opcode.and.code ++ regBits dr ++ regBits sr1 ++ 0b0#1 ++ ign ++ regBits sr2) =
        .and dr sr1 sr2 ∧
    ∃ t, exec (.and dr sr1 sr2) s = .next t ∧
      readReg dr t = readReg sr1 s &&& readReg sr2 s ∧ FlagOf (readReg dr t) t.cond ∧
      SameRegsBut dr s t ∧ t.pc = s.pc ∧ SameRest s t

/-- spec/41_alu.md R83, with its format RRI. -/
def Obligations.AndImmediateForm : Prop :=
  ∀ (dr sr1 : Reg) (imm : BitVec 5) (s : State),
    decode (Opcode.and.code ++ regBits dr ++ regBits sr1 ++ 0b1#1 ++ imm) = .andImm dr sr1 imm ∧
    ∃ t, exec (.andImm dr sr1 imm) s = .next t ∧
      readReg dr t = readReg sr1 s &&& sext imm ∧ FlagOf (readReg dr t) t.cond ∧
      SameRegsBut dr s t ∧ t.pc = s.pc ∧ SameRest s t

/-- spec/41_alu.md R84, with its format RR and ignored bits; `~v` is 0xFFFF - v (R7). -/
def Obligations.NotComplements : Prop :=
  ∀ (dr sr1 : Reg) (ign : BitVec 6) (s : State),
    decode (Opcode.not.code ++ regBits dr ++ regBits sr1 ++ ign) = .not dr sr1 ∧
    ∃ t, exec (.not dr sr1) s = .next t ∧
      readReg dr t = 0xFFFF - readReg sr1 s ∧ FlagOf (readReg dr t) t.cond ∧
      SameRegsBut dr s t ∧ t.pc = s.pc ∧ SameRest s t

/-- spec/30_encoding.md R57, for the four widths used. -/
def Obligations.SignExtensionIsExact : Prop :=
  ∀ n ∈ [5, 6, 9, 11], ∀ v : BitVec n, (sext v).toInt = v.toInt ∧
    (sext v).toNat = if v.getLsbD (n - 1) then v.toNat + 0x10000 - 2 ^ n else v.toNat

/-- spec/10_state.md R16. -/
def Obligations.SetccFollowsRegister : Prop :=
  ∀ (i : Reg) (s : State), FlagOf (readReg i s) (setcc i s).cond ∧ SameRegs s (setcc i s) ∧
    (setcc i s).pc = s.pc ∧ SameRest s (setcc i s)

/-! ### Control -/

/-- spec/42_control.md, sections 1 and 2 (R90, R91), with format BR. Which bit of the field is n, z and p is
the spec's decision D2. -/
def Obligations.BranchFollowsFlag : Prop :=
  ∀ (nzp : BitVec 3) (off : BitVec 9) (s : State),
    decode (Opcode.br.code ++ nzp ++ off) = .br nzp off ∧
    ∃ t, exec (.br nzp off) s = .next t ∧
      (match s.cond with
        | .neg => t.pc = if nzp.getLsbD 2 then s.pc + sext off else s.pc
        | .zero => t.pc = if nzp.getLsbD 1 then s.pc + sext off else s.pc
        | .pos => t.pc = if nzp.getLsbD 0 then s.pc + sext off else s.pc) ∧
      SameRegs s t ∧ t.cond = s.cond ∧ SameRest s t

/-- The no-op encodings, spec/30_encoding.md section 4 (R61): a BR whose three condition bits are 0 changes
nothing but what the fetch changed. That these are the words 0x0000 to 0x01FF rests on the spec's decision
D1, the opcode numbers. -/
def Obligations.NeverTakenBranchIsNoOp : Prop :=
  ∀ w : Word, w.toNat < 0x200 → ∀ s : State, exec (decode w) s = .next s

/-- spec/42_control.md R92, with its format and ignored bits. -/
def Obligations.JumpToRegister : Prop :=
  ∀ (base : Reg) (ign : BitVec 3) (ign' : BitVec 6) (s : State),
    decode (Opcode.jmp.code ++ ign ++ regBits base ++ ign') = .jmp base ∧
    ∃ t, exec (.jmp base) s = .next t ∧ t.pc = readReg base s ∧
      SameRegs s t ∧ t.cond = s.cond ∧ SameRest s t

/-- spec/42_control.md R94, with its format. -/
def Obligations.JumpToSubroutine : Prop :=
  ∀ (off : BitVec 11) (s : State),
    decode (Opcode.jsr.code ++ 0b1#1 ++ off) = .jsr off ∧
    ∃ t, exec (.jsr off) s = .next t ∧ readReg 7 t = s.pc ∧ t.pc = s.pc + sext off ∧
      SameRegsBut 7 s t ∧ t.cond = s.cond ∧ SameRest s t

/-- spec/42_control.md R95, with its format and ignored bits: the link is written before the base is read,
so JSRR R7 falls through. -/
def Obligations.JumpToSubroutineRegister : Prop :=
  ∀ (base : Reg) (ign : BitVec 2) (ign' : BitVec 6) (s : State),
    decode (Opcode.jsr.code ++ 0b0#1 ++ ign ++ regBits base ++ ign') = .jsrr base ∧
    ∃ t, exec (.jsrr base) s = .next t ∧ readReg 7 t = s.pc ∧
      t.pc = (if base = 7 then s.pc else readReg base s) ∧
      SameRegsBut 7 s t ∧ t.cond = s.cond ∧ SameRest s t

/-! ### The memory access layer -/

/-- spec/20_memory.md R32: a read of any address but `KBSR` is plain, `KBDR` among them. -/
def Obligations.ReadElsewhereIsPlain : Prop :=
  ∀ (a : Word) (s : State), a ≠ 0xFE00 → memRead a s = (s.mem.readWord a, s)

/-- A read of `KBSR`, spec/20_memory.md sections 1 and 2. The ready word is 0x8000 by the spec's decision D4.
Where the environment has laid down the poll's answer and the byte, the read takes them (log entries 9
and 10: how the environment stands in State is the model's choice). -/
def Obligations.StatusReadPolls : Prop :=
  ∀ s : State,
    ((memRead 0xFE00 s).1 = 0x8000 ∨ (memRead 0xFE00 s).1 = 0x0000) ∧
    (∀ ps b bs, s.polls = true :: ps → s.input = b :: bs →
      ∃ t, memRead 0xFE00 s = (0x8000, t) ∧ t.mem.readWord 0xFE00 = 0x8000 ∧
        t.mem.readWord 0xFE02 = zext8 b ∧ t.input = bs ∧ t.polls = ps ∧ t.draws = s.draws) ∧
    (∀ ps, s.polls = false :: ps →
      ∃ t, memRead 0xFE00 s = (0x0000, t) ∧ t.mem.readWord 0xFE00 = 0x0000 ∧
        t.mem.readWord 0xFE02 = s.mem.readWord 0xFE02 ∧ t.input = s.input ∧ t.polls = ps ∧
        t.draws = s.draws) ∧
    ReadEffect 0xFE00 s (memRead 0xFE00 s).2 ∧ SameRegs s (memRead 0xFE00 s).2 ∧
    (memRead 0xFE00 s).2.pc = s.pc ∧ (memRead 0xFE00 s).2.cond = s.cond ∧
    SameControl s (memRead 0xFE00 s).2 ∧ SameConsole s (memRead 0xFE00 s).2

/-- spec/20_memory.md section 1 and spec/70_reset_and_hazards.md section 3 (R32, R205): reads of `KBSR` are
destructive of input and nothing is latched. A second read with a key loses the first byte; a second read
without one answers 0 and leaves the byte in `KBDR`. That 0x8000 and no other word is what a stored READY
reads as is the spec's decision D4; how the environment stands in State is log entries 9 and 10. -/
def Obligations.StatusReadIsDestructive : Prop :=
  ∀ (b : Byte) (bs : List Byte) (again : Bool) (ps : List Bool) (s : State),
    s.polls = true :: again :: ps → s.input = b :: bs →
    ∃ t, (memRead 0xFE00 (memRead 0xFE00 s).2) = (if again then 0x8000 else 0x0000, t) ∧
      (∀ c cs, again = true → bs = c :: cs →
        t.mem.readWord 0xFE02 = zext8 c ∧ t.input = cs ∧ t.draws = s.draws) ∧
      (again = false → t.mem.readWord 0xFE02 = zext8 b ∧ t.input = bs ∧ t.draws = s.draws) ∧
      t.polls = ps

/-- spec/20_memory.md R33: a write is a plain store at every address, and a value stored at `KBSR` is never
seen by a later read of `KBSR`. The second half holds because a read with a key assigns the whole word, the
spec's decision D4 (log entry 5): under an OR of bit 15 it would be false. -/
def Obligations.WriteIsPlainStore : Prop :=
  ∀ (a v : Word) (s : State), ∃ t, t = memWrite a v s ∧ t.mem.readWord a = v ∧
    SameMemoryBut a s t ∧ (∀ b : Word, b ≠ a → t.mem.readWord b = s.mem.readWord b) ∧
    SameRegs s t ∧ t.pc = s.pc ∧ t.cond = s.cond ∧ SameControl s t ∧ SameKeyboard s t ∧
    SameConsole s t ∧ (memRead 0xFE00 (memWrite 0xFE00 v s)).1 = (memRead 0xFE00 s).1

/-! ### Loads and stores -/

/-- spec/43_load_store.md R100, with its format. -/
def Obligations.LoadPcRelative : Prop :=
  ∀ (dr : Reg) (off : BitVec 9) (s : State),
    decode (Opcode.ld.code ++ regBits dr ++ off) = .ld dr off ∧
    ∃ t, exec (.ld dr off) s = .next t ∧
      (let ea := s.pc + sext off
       let r := memRead ea s
       readReg dr t = r.1 ∧ FlagOf (readReg dr t) t.cond ∧ t.mem = r.2.mem ∧ SameKeyboard r.2 t ∧
         ReadEffect ea s t ∧ (ea ≠ 0xFE00 → readReg dr t = s.mem.readWord ea)) ∧
      SameRegsBut dr s t ∧ t.pc = s.pc ∧ SameControl s t ∧ SameConsole s t

/-- spec/43_load_store.md R101, with its format: two reads through the memory access layer, the second from the
state the first leaves. -/
def Obligations.LoadIndirect : Prop :=
  ∀ (dr : Reg) (off : BitVec 9) (s : State),
    decode (Opcode.ldi.code ++ regBits dr ++ off) = .ldi dr off ∧
    ∃ t, exec (.ldi dr off) s = .next t ∧
      (let pa := s.pc + sext off
       let p := memRead pa s
       let r := memRead p.1 p.2
       readReg dr t = r.1 ∧ FlagOf (readReg dr t) t.cond ∧ t.mem = r.2.mem ∧ SameKeyboard r.2 t ∧
         ReadEffect p.1 p.2 t ∧
         (pa ≠ 0xFE00 → p.1 = s.mem.readWord pa ∧ ReadEffect p.1 s t) ∧
         (∀ k : Nat, k / 2 ≠ 0xFE00 → k / 2 ≠ 0xFE02 → t.mem.readByte k = s.mem.readByte k)) ∧
      SameRegsBut dr s t ∧ t.pc = s.pc ∧ SameControl s t ∧ SameConsole s t

/-- spec/43_load_store.md R102, with its format. -/
def Obligations.LoadBaseOffset : Prop :=
  ∀ (dr base : Reg) (off : BitVec 6) (s : State),
    decode (Opcode.ldr.code ++ regBits dr ++ regBits base ++ off) = .ldr dr base off ∧
    ∃ t, exec (.ldr dr base off) s = .next t ∧
      (let ea := readReg base s + sext off
       let r := memRead ea s
       readReg dr t = r.1 ∧ FlagOf (readReg dr t) t.cond ∧ t.mem = r.2.mem ∧ SameKeyboard r.2 t ∧
         ReadEffect ea s t ∧ (ea ≠ 0xFE00 → readReg dr t = s.mem.readWord ea)) ∧
      SameRegsBut dr s t ∧ t.pc = s.pc ∧ SameControl s t ∧ SameConsole s t

/-- spec/43_load_store.md R103, with its format. -/
def Obligations.LoadEffectiveAddress : Prop :=
  ∀ (dr : Reg) (off : BitVec 9) (s : State),
    decode (Opcode.lea.code ++ regBits dr ++ off) = .lea dr off ∧
    ∃ t, exec (.lea dr off) s = .next t ∧
      readReg dr t = s.pc + sext off ∧ FlagOf (readReg dr t) t.cond ∧
      SameRegsBut dr s t ∧ t.pc = s.pc ∧ SameRest s t

/-- spec/43_load_store.md R104, with its format. -/
def Obligations.StorePcRelative : Prop :=
  ∀ (sr : Reg) (off : BitVec 9) (s : State),
    decode (Opcode.st.code ++ regBits sr ++ off) = .st sr off ∧
    ∃ t, exec (.st sr off) s = .next t ∧
      t.mem.readWord (s.pc + sext off) = readReg sr s ∧ SameMemoryBut (s.pc + sext off) s t ∧
      SameRegs s t ∧ t.pc = s.pc ∧ t.cond = s.cond ∧ SameControl s t ∧ SameKeyboard s t ∧
      SameConsole s t

/-- spec/43_load_store.md R105, with its format: a read through the memory access layer, then the store. -/
def Obligations.StoreIndirect : Prop :=
  ∀ (sr : Reg) (off : BitVec 9) (s : State),
    decode (Opcode.sti.code ++ regBits sr ++ off) = .sti sr off ∧
    ∃ t, exec (.sti sr off) s = .next t ∧
      (let pa := s.pc + sext off
       let p := memRead pa s
       t.mem.readWord p.1 = readReg sr s ∧ SameMemoryBut p.1 p.2 t ∧ SameKeyboard p.2 t ∧
         (pa ≠ 0xFE00 → p.1 = s.mem.readWord pa ∧ SameMemoryBut p.1 s t ∧ SameKeyboard s t) ∧
         (∀ k : Nat, k / 2 ≠ p.1.toNat → k / 2 ≠ 0xFE00 → k / 2 ≠ 0xFE02 →
           t.mem.readByte k = s.mem.readByte k)) ∧
      SameRegs s t ∧ t.pc = s.pc ∧ t.cond = s.cond ∧ SameControl s t ∧ SameConsole s t

/-- spec/43_load_store.md R106, with its format. -/
def Obligations.StoreBaseOffset : Prop :=
  ∀ (sr base : Reg) (off : BitVec 6) (s : State),
    decode (Opcode.str.code ++ regBits sr ++ regBits base ++ off) = .str sr base off ∧
    ∃ t, exec (.str sr base off) s = .next t ∧
      t.mem.readWord (readReg base s + sext off) = readReg sr s ∧
      SameMemoryBut (readReg base s + sext off) s t ∧
      SameRegs s t ∧ t.pc = s.pc ∧ t.cond = s.cond ∧ SameControl s t ∧ SameKeyboard s t ∧
      SameConsole s t

/-- spec/20_memory.md, the paragraph on instruction fetch (R42, which the spec derives): after ST, STI or STR to
the address of the next instruction, the next fetch gives the word stored. -/
def Obligations.StoreReachesNextFetch : Prop :=
  ∀ (sr base : Reg) (off : BitVec 9) (off6 : BitVec 6) (s t : State), s.pc ≠ 0xFE00 →
    (s.pc + sext off = s.pc → exec (.st sr off) s = .next t → (fetch t).1 = readReg sr s) ∧
    ((memRead (s.pc + sext off) s).1 = s.pc → exec (.sti sr off) s = .next t →
      (fetch t).1 = readReg sr s) ∧
    (readReg base s + sext off6 = s.pc → exec (.str sr base off6) s = .next t →
      (fetch t).1 = readReg sr s)

/-! ### TRAP -/

/-- GETC with a byte pending, spec/44_trap.md section 2 (R121). Zero extension is the spec's decision D15. -/
def Obligations.GetcReturnsKey : Prop :=
  ∀ (ign : BitVec 4) (b : Byte) (rest : List Byte) (s : State), s.input = b :: rest →
    decode (Opcode.trap.code ++ ign ++ 0x20#8) = .trapGetc ∧
    ∃ t, exec .trapGetc s = .next t ∧ readReg 7 t = s.pc ∧
      (readReg 0 t).toNat = b.toNat ∧ FlagOf (readReg 0 t) t.cond ∧ t.input = rest ∧
      (∀ r : Reg, r ≠ 0 → r ≠ 7 → readReg r t = readReg r s) ∧ t.pc = s.pc ∧ t.held = none ∧
      SameMemory s t ∧ t.polls = s.polls ∧ t.draws = s.draws ∧ SameConsole s t ∧
      t.running = s.running ∧ t.fault = s.fault ∧ t.faultIr = s.faultIr

/-- GETC and IN without a byte pending, spec/40_execution_cycle.md section 2, the paragraph on the hold: if the
environment supplies a byte they act as if it had been pending, and otherwise the step counts as not taken,
IN's prompt apart. The whole statement is about the model's choices of log entries 10 and 11. -/
def Obligations.KeyServiceAwaitsInput : Prop :=
  ∀ s : State, s.input = [] →
    (exec .trapGetc s =
      if Config.kbdArrives s.draws then
        exec .trapGetc { s with input := [Config.kbdByte s.draws], draws := s.draws + 1 }
      else .next { s with pc := s.pc - 1, draws := s.draws + 1, held := some .getc }) ∧
    (exec .trapIn s =
      if Config.kbdArrives s.draws then
        exec .trapIn { s with input := [Config.kbdByte s.draws], draws := s.draws + 1 }
      else .next
        { s with
          pc := s.pc - 1, draws := s.draws + 1, held := some .input
          output := s.output ++ (if s.held = some .input then [] else Config.inPrompt) })

/-- spec/44_trap.md R122, with its vector and ignored bits. -/
def Obligations.OutEmitsLowByte : Prop :=
  ∀ (ign : BitVec 4) (s : State),
    decode (Opcode.trap.code ++ ign ++ 0x21#8) = .trapOut ∧
    ∃ t, exec .trapOut s = .next t ∧ readReg 7 t = s.pc ∧
      t.output = s.output ++ [(readReg 0 s).extractLsb' 0 8] ∧ t.flushed = t.output.length ∧
      SameRegsBut 7 s t ∧ t.pc = s.pc ∧ t.cond = s.cond ∧
      SameMemory s t ∧ SameControl s t ∧ SameKeyboard s t

/-- PUTS on a string that ends within one pass and does not cross `KBSR`, spec/44_trap.md section 2 (R123): one
byte for each word before the first zero word, and no terminator. -/
def Obligations.PutsEmitsString : Prop :=
  ∀ (ign : BitVec 4) (n : Nat) (s : State), n < 0x10000 →
    (∀ j, j < n → s.mem.readWord (readReg 0 s + BitVec.ofNat 16 j) ≠ 0) →
    s.mem.readWord (readReg 0 s + BitVec.ofNat 16 n) = 0 →
    (∀ j, j ≤ n → readReg 0 s + BitVec.ofNat 16 j ≠ 0xFE00) →
    decode (Opcode.trap.code ++ ign ++ 0x22#8) = .trapPuts ∧
    ∃ t, exec .trapPuts s = .next t ∧ readReg 7 t = s.pc ∧
      t.output = s.output ++ (List.range n).map
        (fun j => (s.mem.readWord (readReg 0 s + BitVec.ofNat 16 j)).extractLsb' 0 8) ∧
      t.flushed = t.output.length ∧ SameRegsBut 7 s t ∧ t.pc = s.pc ∧ t.cond = s.cond ∧
      SameMemory s t ∧ SameKeyboard s t ∧ SameControl s t

/-- PUTSP on a string that ends within one pass and does not cross `KBSR`, spec/44_trap.md section 2 (R125): for
each word before the first zero word the low byte, then the high byte if it is not zero. -/
def Obligations.PutspEmitsPackedString : Prop :=
  ∀ (ign : BitVec 4) (n : Nat) (s : State), n < 0x10000 →
    (∀ j, j < n → s.mem.readWord (readReg 0 s + BitVec.ofNat 16 j) ≠ 0) →
    s.mem.readWord (readReg 0 s + BitVec.ofNat 16 n) = 0 →
    (∀ j, j ≤ n → readReg 0 s + BitVec.ofNat 16 j ≠ 0xFE00) →
    decode (Opcode.trap.code ++ ign ++ 0x24#8) = .trapPutsp ∧
    ∃ t, exec .trapPutsp s = .next t ∧ readReg 7 t = s.pc ∧
      t.output = s.output ++ (List.range n).flatMap
        (fun j =>
          let w := s.mem.readWord (readReg 0 s + BitVec.ofNat 16 j)
          w.extractLsb' 0 8 :: (if w.extractLsb' 8 8 = 0 then [] else [w.extractLsb' 8 8])) ∧
      t.flushed = t.output.length ∧ SameRegsBut 7 s t ∧ t.pc = s.pc ∧ t.cond = s.cond ∧
      SameMemory s t ∧ SameKeyboard s t ∧ SameControl s t

/-- PUTS and PUTSP in every case, the crossing of `KBSR` included. They complete, and then only the link register,
the two keyboard words, the keyboard and the console can have changed; or the step has no successor state
(spec/44_trap.md R128, the spec's decision D18), and then no word outside the two keyboard words is zero,
every poll laid down finds a key, no byte pending is 0 (it would be read back in `KBDR`, in the same pass or in
the next), and the environment has a key ready for ever. The named stop and the draw of
the environment's run of keys are the model's choice (log entry 12), the path of the reads is the spec's
decision D9 (log entry 13). -/
def Obligations.StringServiceFrame : Prop :=
  ∀ (i : Instr) (s : State), i ∈ [Instr.trapPuts, .trapPutsp] →
    (∃ t, exec i s = .next t ∧ readReg 7 t = s.pc ∧ SameRegsBut 7 s t ∧ t.pc = s.pc ∧ t.cond = s.cond ∧
      (∃ bs, t.output = s.output ++ bs) ∧ t.flushed = t.output.length ∧
      (∃ used, s.input = used ++ t.input) ∧
      (∀ k : Nat, k / 2 ≠ 0xFE00 → k / 2 ≠ 0xFE02 → t.mem.readByte k = s.mem.readByte k) ∧
      SameControl s t) ∨
    (exec i s = .fault .stringNeverEnds ∧
      (∀ a : Word, a ≠ 0xFE00 → a ≠ 0xFE02 → s.mem.readWord a ≠ 0) ∧
      (∀ p ∈ s.polls, p = true) ∧ (∀ b ∈ s.input, b ≠ 0) ∧ ∃ d, Config.kbdRun d = none)

/-- PUTS and PUTSP where every word outside `KBSR` is non-zero and the polls laid down find keys whose bytes are
not 0, spec/44_trap.md section 3 (R128, the spec's decision D18). If the environment has a key ready for ever,
the step has no successor state; if its run of keys ends, the step completes, after 65,536 bytes or more for
each poll that was laid down. That the polls are made at all rests on the path of the reads, the spec's
decision D9 (log entry 13); the named stop and the draw are log entry 12. -/
def Obligations.StringWithoutZeroWordNeverEnds : Prop :=
  ∀ (i : Instr) (s : State), i ∈ [Instr.trapPuts, .trapPutsp] →
    (∀ a : Word, a ≠ 0xFE00 → s.mem.readWord a ≠ 0) → s.polls ≠ [] → (∀ p ∈ s.polls, p = true) →
    (∀ b ∈ s.input, b ≠ 0) → s.polls.length ≤ s.input.length →
    (Config.kbdRun s.draws = none → exec i s = .fault .stringNeverEnds) ∧
    (∀ k, Config.kbdRun s.draws = some k →
      ∃ t, exec i s = .next t ∧ s.output.length + s.polls.length * 0x10000 ≤ t.output.length)

/-- IN with a byte pending, spec/44_trap.md section 2 (R124). The prompt is an open parameter, and emitted once:
not again by a step held after it (log entry 11). Zero extension is the spec's decision D15. -/
def Obligations.InPromptsAndEchoes : Prop :=
  ∀ (ign : BitVec 4) (b : Byte) (rest : List Byte) (s : State), s.input = b :: rest →
    decode (Opcode.trap.code ++ ign ++ 0x23#8) = .trapIn ∧
    ∃ t, exec .trapIn s = .next t ∧ readReg 7 t = s.pc ∧
      (readReg 0 t).toNat = b.toNat ∧ FlagOf (readReg 0 t) t.cond ∧ t.input = rest ∧
      t.output = s.output ++ (if s.held = some .input then [] else Config.inPrompt) ++ [b] ∧
      t.flushed = t.output.length ∧
      (∀ r : Reg, r ≠ 0 → r ≠ 7 → readReg r t = readReg r s) ∧ t.pc = s.pc ∧ t.held = none ∧
      SameMemory s t ∧ t.polls = s.polls ∧ t.draws = s.draws ∧
      t.running = s.running ∧ t.fault = s.fault ∧ t.faultIr = s.faultIr

/-- spec/44_trap.md R126, with its vector and ignored bits. The notice is an open parameter. -/
def Obligations.HaltClearsRunning : Prop :=
  ∀ (ign : BitVec 4) (s : State),
    decode (Opcode.trap.code ++ ign ++ 0x25#8) = .trapHalt ∧
    ∃ t, exec .trapHalt s = .next t ∧ readReg 7 t = s.pc ∧ t.running = false ∧
      t.output = s.output ++ Config.haltNotice ∧ t.flushed = t.output.length ∧
      SameRegsBut 7 s t ∧ t.pc = s.pc ∧ t.cond = s.cond ∧ SameMemory s t ∧ SameKeyboard s t ∧
      t.fault = s.fault ∧ t.faultIr = s.faultIr ∧ t.held = s.held

/-- spec/44_trap.md R127, with the vectors it is about and the ignored bits. -/
def Obligations.OtherVectorWritesLinkOnly : Prop :=
  ∀ (ign : BitVec 4) (v : BitVec 8) (s : State), (v.toNat < 0x20 ∨ 0x25 < v.toNat) →
    decode (Opcode.trap.code ++ ign ++ v) = .trapOther v ∧
    ∃ t, exec (.trapOther v) s = .next t ∧ readReg 7 t = s.pc ∧ SameRegsBut 7 s t ∧
      t.pc = s.pc ∧ t.cond = s.cond ∧ SameRest s t

/-! ### The exception -/

/-- RTI and RES, spec/45_reserved.md (R140, R141) and spec/60_exceptions.md section 1 (R171): the latch, the
record, and nothing else. The latch and the record are the spec's decision D5. -/
def Obligations.ReservedOpcodeFaults : Prop :=
  ∀ (low : BitVec 12) (s : State),
    decode (Opcode.rti.code ++ low) = .rti low ∧ decode (Opcode.res.code ++ low) = .res low ∧
    exec (.rti low) s = .next { s with fault := true, faultIr := Opcode.rti.code ++ low } ∧
    exec (.res low) s = .next { s with fault := true, faultIr := Opcode.res.code ++ low }

/-- A fetch from the status address, spec/40_execution_cycle.md section 3 (R77): the word stored there is never
executed; without a key the step is a no-op, with one it faults. The words 0x0000 and 0x8000 are what they
are by the spec's decisions D1 and D4. -/
def Obligations.FetchFromStatusAddress : Prop :=
  ∀ s : State, Running s → s.held = none → s.pc = 0xFE00 →
    (∀ ps, s.polls = false :: ps →
      ∃ t, step s = .next t ∧ t.pc = 0xFE01 ∧ t.fault = false ∧ t.mem.readWord 0xFE00 = 0x0000 ∧
        SameRegs s t ∧ t.cond = s.cond ∧ t.input = s.input ∧ SameConsole s t ∧
        (∀ k : Nat, k / 2 ≠ 0xFE00 → t.mem.readByte k = s.mem.readByte k)) ∧
    (∀ ps b bs, s.polls = true :: ps → s.input = b :: bs →
      ∃ t, step s = .next t ∧ t.pc = 0xFE01 ∧ t.fault = true ∧ t.faultIr = 0x8000 ∧
        t.mem.readWord 0xFE00 = 0x8000 ∧ t.mem.readWord 0xFE02 = zext8 b ∧ t.input = bs ∧
        t.running = true ∧ SameRegs s t ∧ t.cond = s.cond ∧ SameConsole s t ∧
        (∀ k : Nat, k / 2 ≠ 0xFE00 → k / 2 ≠ 0xFE02 → t.mem.readByte k = s.mem.readByte k))

/-! ### Rules of the whole machine -/

/-- spec/10_state.md R17: the flags change by the instructions listed there, from the register named there, and
by nothing else. A step of GETC or IN that holds has not been taken, and changes none. -/
def Obligations.FlagsFollowListedInstructions : Prop :=
  ∀ (i : Instr) (s t : State), exec i s = .next t →
    (flagSource i = none → t.cond = s.cond) ∧
    (∀ d, flagSource i = some d → FlagOf (readReg d t) t.cond ∨
      ((i = .trapGetc ∨ i = .trapIn) ∧ t.held ≠ none ∧ t.cond = s.cond))

/-- spec/10_state.md, the rule on the running flag (R18): only HALT clears it. -/
def Obligations.OnlyHaltClearsRunning : Prop :=
  ∀ s t : State, step s = .next t → s.running = true →
    (t.running = false ↔ executed s = .trapHalt)

/-- spec/60_exceptions.md section 1 (R170): the exception is raised by RTI and RES, on every such instruction,
and by nothing else. The latch that shows it is the spec's decision D5. -/
def Obligations.OnlyReservedOpcodesFault : Prop :=
  ∀ s t : State, step s = .next t → Running s →
    (t.fault = true ↔ ((executed s).opcode = .rti ∨ (executed s).opcode = .res))

/-- spec/40_execution_cycle.md section 2 (R74, which the spec derives): after the fetch increment only BR, JMP,
JSR and JSRR write JSR and JSRR write `pc`; a service that holds undoes the increment, the model's choice (log entry 11). -/
def Obligations.OnlyTransfersMovePc : Prop :=
  ∀ (i : Instr) (s t : State), exec i s = .next t → i.opcode ∉ [Opcode.br, .jmp, .jsr] →
    t.pc = s.pc ∨
      (i ∈ [Instr.trapGetc, .trapIn] ∧ t.held ≠ none ∧ t.pc = s.pc - 1)

/-- spec/50_interfaces.md R155: output only grows, and only OUT, PUTS, IN, PUTSP and HALT emit; no store
reaches the console. -/
def Obligations.OnlyServicesEmitOutput : Prop :=
  ∀ (i : Instr) (s t : State), exec i s = .next t →
    (∃ bs, t.output = s.output ++ bs) ∧
    (i ∉ [Instr.trapOut, .trapPuts, .trapIn, .trapPutsp, .trapHalt] → SameConsole s t)

/-- spec/10_state.md section 1, the row of memory: but for the two keyboard words, a step that is not a store
changes no byte of memory. -/
def Obligations.OnlyStoresWriteMemory : Prop :=
  ∀ s t : State, step s = .next t → (executed s).opcode ∉ [Opcode.st, .sti, .str] →
    ∀ k : Nat, k / 2 ≠ 0xFE00 → k / 2 ≠ 0xFE02 → t.mem.readByte k = s.mem.readByte k

/-- spec/50_interfaces.md section 2 (R154): pending input is consumed from the front, in order, whichever
instruction takes it. One ordered stream is the spec's decision D16. -/
def Obligations.InputConsumedInOrder : Prop :=
  ∀ s t : State, step s = .next t → ∃ used, s.input = used ++ t.input

/-- spec/10_state.md section 5: no instruction reads the running flag, the fault latch or the fault record.
Changing them beforehand changes nothing else of what an instruction does. -/
def Obligations.StatusIsReadByNoInstruction : Prop :=
  ∀ (i : Instr) (b f : Bool) (w : Word) (s t : State), exec i s = .next t →
    ∃ t', exec i { s with running := b, fault := f, faultIr := w } = .next t' ∧
      t' = { t with running := t'.running, fault := t'.fault, faultIr := t'.faultIr }

/-- spec/10_state.md section 4 (R17): "The only reader of `cond` is BR". Changing the flags before any other
instruction changes nothing else of what it does. -/
def Obligations.OnlyBranchReadsFlags : Prop :=
  ∀ (i : Instr) (c : Cond) (s t : State), i.opcode ≠ .br → exec i s = .next t →
    ∃ t', exec i { s with cond := c } = .next t' ∧ t' = { t with cond := t'.cond } ∧
      (flagSource i = none → t'.cond = c)

/-- The state after reset meets the invariant of Safety.lean, no fault is latched (the spec's decision D5, log
entry 6) and no step is held (the model's choice, log entry 20). -/
def Obligations.ResetMeetsInvariant : Prop :=
  Inv State.reset ∧ State.reset.fault = false ∧ State.reset.held = none

/-- Every step keeps the invariant of Safety.lean: the canonical form of memory, `running` left set and a
reserved opcode recorded by a fault (the spec's decision D5, log entry 6), and a hold only in a machine that is
Running (log entry 11). -/
def Obligations.StepKeepsInvariant : Prop :=
  ∀ s t : State, Inv s → step s = .next t → Inv t

/-! ### Encoding -/

/-- Words written out from spec/30_encoding.md section 6 and spec/95_test_vectors.md decode to what they stand
for. The opcode numbers are the spec's decision D1. -/
def Obligations.SpecWordsDecode : Prop :=
  decode 0xC1C0 = .jmp 7 ∧ decode 0xF020 = .trapGetc ∧ decode 0xF021 = .trapOut ∧
    decode 0xF022 = .trapPuts ∧ decode 0xF023 = .trapIn ∧ decode 0xF024 = .trapPutsp ∧
    decode 0xF025 = .trapHalt ∧ decode 0x0000 = .br 0 0 ∧ decode 0x105A = .add 0 1 2 ∧
    decode 0x7203 = .str 1 0 3 ∧ decode 0x4802 = .jsr 2 ∧ decode 0xB003 = .sti 0 3 ∧
    decode 0x8ABC = .rti 0xABC ∧ decode 0x507F = .andImm 0 1 0x1F

/-- Decoding an encoded well-formed instruction gives it back, every operand at every value. -/
def Obligations.DecodeOfEncode : Prop :=
  ∀ i : Instr, i.wellFormed = true → decode (encode i) = i

/-- spec/30_encoding.md sections 3 and 4 (R54, R56): every word decodes to a well-formed instruction, decoding
drops no bit of it but those R56 lists as ignored, and words that differ in ignored bits alone decode to
the same instruction. The low 12 bits of RTI and RES, which R56 lists too, are not among `ignoredBits`: the
model's choice (log entry 19) keeps them as an operand, because the fault records the word. -/
def Obligations.DecodeDropsOnlyIgnoredBits : Prop :=
  ∀ w : Word, (decode w).wellFormed = true ∧
    encode (decode w) ||| ignoredBits (decode w) = w ||| ignoredBits (decode w) ∧
    ∀ w' : Word, w' ||| ignoredBits (decode w) = w ||| ignoredBits (decode w) → decode w' = decode w

/-- spec/opcode_table.json, by mask and match: a word lies on the row of the instruction it decodes to, and a
word on the row of any instruction but TRAP.other (the row of lower priority) decodes to that row. The
numbers are the spec's decision D1. -/
def Obligations.DecodeFollowsOpcodeTable : Prop :=
  ∀ w : Word, w &&& (tableRow (decode w)).1 = (tableRow (decode w)).2 ∧
    ∀ i : Instr, (∀ v, i ≠ .trapOther v) → w &&& (tableRow i).1 = (tableRow i).2 →
      tableRow (decode w) = tableRow i

/-! ### The loader -/

/-- spec/70_reset_and_hazards.md R197 and R198: origin, big-endian payload words, truncation at 0xFFFF without
wrap, and nothing else touched. -/
def Obligations.LoadImageStoresPayload : Prop :=
  ∀ (hi lo : Byte) (payload : List Byte) (s : State),
    ∃ t, loadImage (hi :: lo :: payload) s = .next t ∧
      (let origin := hi.toNat * 256 + lo.toNat
       (∀ i, i < min (payload.length / 2) (0x10000 - origin) →
         (t.mem.readWord (BitVec.ofNat 16 (origin + i))).toNat =
           (payload.getD (2 * i) 0).toNat * 256 + (payload.getD (2 * i + 1) 0).toNat) ∧
       (∀ k : Nat, (k / 2 < origin ∨ origin + payload.length / 2 ≤ k / 2) →
         t.mem.readByte k = s.mem.readByte k)) ∧
      t = { s with mem := t.mem }

/-- spec/70_reset_and_hazards.md section 2: a launch that succeeds starts from the reset state, `pc` at 0x3000
whatever the origins, with memory alone changed, and meets the invariant of Safety.lean. -/
def Obligations.LaunchMeetsInvariant : Prop :=
  ∀ (images : List (Option (List Byte))) (t : State), launch images = .next t →
    Inv t ∧ t.pc = 0x3000 ∧ t = { State.reset with mem := t.mem }

/-- spec/70_reset_and_hazards.md section 2 (R199): an image that cannot be opened, or is shorter than two bytes,
stops the launch, whatever images follow. The short image is the spec's decision D12. -/
def Obligations.BadImageStopsLaunch : Prop :=
  ∀ (good rest : List (Option (List Byte))) (bytes : List Byte) (s t : State),
    loadImages good s = .next t →
    loadImages (good ++ none :: rest) s = .refused .imageNotOpened ∧
      (bytes.length < 2 → loadImages (good ++ some bytes :: rest) s = .refused .imageTooShort) ∧
      t = { s with mem := t.mem }

/-! ### The loop that never ends -/

/-- The loop of PUTS and PUTSP over a memory with no zero word outside `KBSR`, spec/44_trap.md section 3 (R128):
for every number of passes with a key at each, and no byte of 0 among them, it has not ended and has emitted
65,536 bytes or more for each pass; the machine is neither Halted nor Faulted by it. The polls rest on the
spec's decision D9 (log entry 13). -/
def Obligations.StringLoopEmitsWithoutBound : Prop :=
  ∀ (emit : Word → List Byte) (n : Nat) (a : Word) (s : State), emit ∈ [putsBytes, putspBytes] →
    (∀ a : Word, a ≠ 0xFE00 → s.mem.readWord a ≠ 0) → (∀ p ∈ s.polls, p = true) →
    (∀ b ∈ s.input, b ≠ 0) → n ≤ s.polls.length → n ≤ s.input.length →
    (stringPasses emit n a s).1 = false ∧
      s.output.length + n * 0x10000 ≤ (stringPasses emit n a s).2.output.length ∧
      (stringPasses emit n a s).2.running = s.running ∧ (stringPasses emit n a s).2.fault = s.fault
end

