-- ==== Sys2Proof/Laws/Memory.lean ====
section
/-! SUPPORT. The laws of raw storage: a read after a write, the bytes and words a write leaves alone, the
canonical form kept by every write, and that canonical memories that read alike are equal. -/

namespace Sys2Proof.Machine

/-! ### Bytes and words -/

@[simp] theorem wordOfBytes_hi_lo (w : Word) : wordOfBytes (hiByte w) (loByte w) = w := by
  apply BitVec.eq_of_getLsbD_eq
  intro i hi
  simp only [wordOfBytes, hiByte, loByte, BitVec.getLsbD_append, BitVec.getLsbD_extractLsb']
  by_cases h : i < 8
  · simp [h]
  · have h2 : i - 8 < 8 := by omega
    have h3 : 8 + (i - 8) = i := by omega
    simp [h, h2, h3]

@[simp] theorem hiByte_wordOfBytes (h l : Byte) : hiByte (wordOfBytes h l) = h := by
  apply BitVec.eq_of_getLsbD_eq
  intro i hi
  have h8 : ¬ 8 + i < 8 := by omega
  simp only [hiByte, wordOfBytes, BitVec.getLsbD_extractLsb', BitVec.getLsbD_append, hi, h8]
  simp

@[simp] theorem loByte_wordOfBytes (h l : Byte) : loByte (wordOfBytes h l) = l := by
  apply BitVec.eq_of_getLsbD_eq
  intro i hi
  simp only [loByte, wordOfBytes, BitVec.getLsbD_extractLsb', BitVec.getLsbD_append, hi, Nat.zero_add]
  simp

/-! ### One byte -/

namespace Memory

theorem readByte_filter_same (m : Memory) (k : Nat) :
    Memory.readByte (m.filter (fun c => c.1 ≠ k)) k = unlisted := by
  induction m with
  | nil => rfl
  | cons c rest ih =>
    by_cases h : c.1 = k
    · simpa [h] using ih
    · simpa [h, Memory.readByte] using ih

theorem readByte_filter_of_ne (m : Memory) {j k : Nat} (hj : j ≠ k) :
    Memory.readByte (m.filter (fun c => c.1 ≠ k)) j = m.readByte j := by
  induction m with
  | nil => rfl
  | cons c rest ih =>
    by_cases h : c.1 = k
    · have hc : ¬ c.1 = j := by omega
      simpa [h, Memory.readByte, hc, show ¬ k = j from fun e => hj e.symm] using ih
    · by_cases hc : c.1 = j
      · simp [hc, Memory.readByte, hj]
      · simpa [h, Memory.readByte, hc] using ih

theorem readByte_putByte_same (m : Memory) (k : Nat) (b : Byte) : (m.putByte k b).readByte k = b := by
  induction m with
  | nil => simp [putByte, readByte]
  | cons c rest ih =>
    simp only [putByte]
    split
    · simp [readByte]
    · next h =>
      split
      · simp [readByte]
      · simpa [readByte, h] using ih

theorem readByte_putByte_of_ne (m : Memory) {j k : Nat} (hj : j ≠ k) (b : Byte) :
    (m.putByte k b).readByte j = m.readByte j := by
  have hk : ¬ k = j := fun e => hj e.symm
  induction m with
  | nil => simp [putByte, readByte, hk]
  | cons c rest ih =>
    simp only [putByte]
    split
    · next h => simp [readByte, hk, h]
    · split
      · simp [readByte, hk]
      · simp [readByte, ih]

/-- A byte written is read back, in every memory. -/
@[simp] theorem readByte_writeByte_same (m : Memory) (k : Nat) (b : Byte) :
    (m.writeByte k b).readByte k = b := by
  unfold writeByte
  split
  · next h => rw [h]; exact readByte_filter_same m k
  · exact readByte_putByte_same m k b

/-- A byte write leaves every other byte alone, in every memory. -/
theorem readByte_writeByte_of_ne (m : Memory) {j k : Nat} (hj : j ≠ k) (b : Byte) :
    (m.writeByte k b).readByte j = m.readByte j := by
  unfold writeByte
  split
  · exact readByte_filter_of_ne m hj
  · exact readByte_putByte_of_ne m hj b

/-! ### One word -/

/-- A word written is read back. -/
@[simp] theorem readWord_writeWord_same (m : Memory) (a v : Word) : (m.writeWord a v).readWord a = v := by
  have h : cellOf a ≠ cellOf a + 1 := by omega
  simp only [readWord, writeWord, readByte_writeByte_same, readByte_writeByte_of_ne _ h,
    wordOfBytes_hi_lo]

/-- A word write leaves every byte outside the word alone. -/
theorem readByte_writeWord_of_ne (m : Memory) {a : Word} {k : Nat} (hk : k / 2 ≠ a.toNat) (v : Word) :
    (m.writeWord a v).readByte k = m.readByte k := by
  have h1 : k ≠ cellOf a + 1 := by unfold cellOf; omega
  have h0 : k ≠ cellOf a := by unfold cellOf; omega
  rw [writeWord, readByte_writeByte_of_ne _ h1, readByte_writeByte_of_ne _ h0]

/-- A word write leaves every other word alone. -/
theorem readWord_writeWord_of_ne (m : Memory) {a b : Word} (hb : b ≠ a) (v : Word) :
    (m.writeWord a v).readWord b = m.readWord b := by
  have hn : b.toNat ≠ a.toNat := fun e => hb (BitVec.eq_of_toNat_eq e)
  have h0 : cellOf b / 2 ≠ a.toNat := by unfold cellOf; omega
  have h1 : (cellOf b + 1) / 2 ≠ a.toNat := by unfold cellOf; omega
  simp only [readWord, readByte_writeWord_of_ne m h0, readByte_writeWord_of_ne m h1]

/-- Memories that read alike byte by byte read alike word by word. -/
theorem readWord_congr {m m' : Memory} (h : ∀ k, m'.readByte k = m.readByte k) (a : Word) :
    m'.readWord a = m.readWord a := by
  simp only [readWord, h]

@[simp] theorem readWord_nil (a : Word) : Memory.readWord [] a = 0 := by
  simp [readWord, readByte, unlisted, wordOfBytes]

/-! ### The canonical form -/

theorem mem_putByte {m : Memory} {k : Nat} {b : Byte} {c : Host.Cell} (h : c ∈ m.putByte k b) :
    c = (k, b) ∨ c ∈ m := by
  induction m with
  | nil => simpa [putByte] using h
  | cons d rest ih =>
    simp only [putByte] at h
    split at h
    · rcases List.mem_cons.1 h with h | h
      · exact .inl h
      · exact .inr (List.mem_cons_of_mem _ h)
    · split at h
      · rcases List.mem_cons.1 h with h | h
        · exact .inl h
        · exact .inr h
      · rcases List.mem_cons.1 h with h | h
        · exact .inr (h ▸ List.mem_cons_self)
        · exact (ih h).imp_right (List.mem_cons_of_mem _)

theorem putByte_pairwise {m : Memory} {k : Nat} {b : Byte}
    (h : m.Pairwise (fun c d => c.1 < d.1)) : (m.putByte k b).Pairwise (fun c d => c.1 < d.1) := by
  induction m with
  | nil => simp [putByte]
  | cons c rest ih =>
    obtain ⟨hc, hr⟩ := List.pairwise_cons.1 h
    simp only [putByte]
    split
    · next e => exact List.pairwise_cons.2 ⟨fun d hd => e ▸ hc d hd, hr⟩
    · next hne =>
      split
      · next hlt =>
        refine List.pairwise_cons.2 ⟨fun d hd => ?_, h⟩
        rcases List.mem_cons.1 hd with rfl | hd
        · exact hlt
        · exact Nat.lt_trans hlt (hc d hd)
      · next hnlt =>
        refine List.pairwise_cons.2 ⟨fun d hd => ?_, ih hr⟩
        rcases mem_putByte hd with rfl | hd
        · show c.1 < k
          have h1 : ¬ c.1 = k := hne
          have h2 : ¬ k < c.1 := hnlt
          omega
        · exact hc d hd

/-- A byte write inside the address space keeps the canonical form. -/
theorem wf_writeByte {m : Memory} (h : m.wf) {k : Nat} (hk : k < cells) (b : Byte) :
    (m.writeByte k b).wf := by
  unfold writeByte
  split
  · exact ⟨h.1.sublist List.filter_sublist, fun c hc => h.2 c (List.mem_filter.1 hc).1⟩
  · next hb =>
    refine ⟨putByte_pairwise h.1, fun c hc => ?_⟩
    rcases mem_putByte hc with rfl | hc
    · exact ⟨hk, hb⟩
    · exact h.2 c hc

/-- A word write keeps the canonical form. -/
theorem wf_writeWord {m : Memory} (h : m.wf) (a v : Word) : (m.writeWord a v).wf := by
  have ha : a.toNat < 65536 := a.isLt
  exact wf_writeByte (wf_writeByte h (by unfold cellOf cells; omega) _) (by unfold cellOf cells; omega) _

theorem wf_nil : Memory.wf [] := ⟨.nil, fun _ h => nomatch h⟩

theorem readByte_eq_unlisted_of_lt {m : Memory} {k : Nat} (h : ∀ c ∈ m, k < c.1) :
    m.readByte k = unlisted := by
  induction m with
  | nil => rfl
  | cons c rest ih =>
    have hc : ¬ c.1 = k := by have := h c List.mem_cons_self; omega
    simp only [readByte, hc, if_false]
    exact ih fun d hd => h d (List.mem_cons_of_mem _ hd)

theorem wf_tail {c : Host.Cell} {m : Memory} (h : Memory.wf (c :: m)) : Memory.wf m :=
  ⟨(List.pairwise_cons.1 h.1).2, fun d hd => h.2 d (List.mem_cons_of_mem _ hd)⟩

/-- Equal memories are equal data: two canonical memories that read alike are one list. -/
theorem eq_of_readByte {m m' : Memory} (h : m.wf) (h' : m'.wf)
    (he : ∀ k, m.readByte k = m'.readByte k) : m = m' := by
  induction m generalizing m' with
  | nil =>
    cases m' with
    | nil => rfl
    | cons d rest =>
      have := he d.1
      simp only [readByte, if_true] at this
      exact absurd this.symm (h'.2 d List.mem_cons_self).2
  | cons c rest ih =>
    cases m' with
    | nil =>
      have := he c.1
      simp only [readByte, if_true] at this
      exact absurd this (h.2 c List.mem_cons_self).2
    | cons d rest' =>
      have hc := (List.pairwise_cons.1 h.1).1
      have hd := (List.pairwise_cons.1 h'.1).1
      have hkey : c.1 = d.1 := by
        rcases Nat.lt_trichotomy c.1 d.1 with hlt | heq | hgt
        · have h1 := he c.1
          rw [readByte_eq_unlisted_of_lt (m := d :: rest')] at h1
          · simp only [readByte, if_true] at h1
            exact absurd h1 (h.2 c List.mem_cons_self).2
          · intro e he'
            rcases List.mem_cons.1 he' with rfl | he'
            · exact hlt
            · exact Nat.lt_trans hlt (hd e he')
        · exact heq
        · have h1 := he d.1
          rw [readByte_eq_unlisted_of_lt (m := c :: rest)] at h1
          · simp only [readByte, if_true] at h1
            exact absurd h1.symm (h'.2 d List.mem_cons_self).2
          · intro e he'
            rcases List.mem_cons.1 he' with rfl | he'
            · exact hgt
            · exact Nat.lt_trans hgt (hc e he')
      have hval : c.2 = d.2 := by
        have h1 := he c.1
        simp only [readByte, if_true, hkey] at h1
        exact h1
      have hrest : rest = rest' := by
        refine ih (wf_tail h) (wf_tail h') fun k => ?_
        by_cases hk : c.1 = k
        · rw [readByte_eq_unlisted_of_lt (fun e he' => hk ▸ hc e he'),
            readByte_eq_unlisted_of_lt (fun e he' => hk ▸ hkey ▸ hd e he')]
        · have h1 := he k
          simp only [readByte, hk, hkey ▸ hk, if_false] at h1
          exact h1
      rw [hrest, Prod.ext hkey hval]

end Memory

end Sys2Proof.Machine
end

