-- ==== Sys2Proof/Laws/State.lean ====
section
/-! SUPPORT. One lemma for each field and each named update of the state, true by rfl, so that no proof
unfolds a record update; then reading a register after each update. -/

namespace Sys2Proof.Machine

section
variable (i : Reg) (v : Word) (s : State)
@[simp] theorem writeReg_regs : (writeReg i v s).regs = s.regs.set i v := rfl
@[simp] theorem writeReg_pc : (writeReg i v s).pc = s.pc := rfl
@[simp] theorem writeReg_cond : (writeReg i v s).cond = s.cond := rfl
@[simp] theorem writeReg_running : (writeReg i v s).running = s.running := rfl
@[simp] theorem writeReg_fault : (writeReg i v s).fault = s.fault := rfl
@[simp] theorem writeReg_faultIr : (writeReg i v s).faultIr = s.faultIr := rfl
@[simp] theorem writeReg_mem : (writeReg i v s).mem = s.mem := rfl
@[simp] theorem writeReg_input : (writeReg i v s).input = s.input := rfl
@[simp] theorem writeReg_output : (writeReg i v s).output = s.output := rfl
@[simp] theorem writeReg_polls : (writeReg i v s).polls = s.polls := rfl
@[simp] theorem writeReg_draws : (writeReg i v s).draws = s.draws := rfl
@[simp] theorem writeReg_flushed : (writeReg i v s).flushed = s.flushed := rfl
@[simp] theorem writeReg_held : (writeReg i v s).held = s.held := rfl
end

section
variable (p : Word) (s : State)
@[simp] theorem setPc_regs : (setPc p s).regs = s.regs := rfl
@[simp] theorem setPc_pc : (setPc p s).pc = p := rfl
@[simp] theorem setPc_cond : (setPc p s).cond = s.cond := rfl
@[simp] theorem setPc_running : (setPc p s).running = s.running := rfl
@[simp] theorem setPc_fault : (setPc p s).fault = s.fault := rfl
@[simp] theorem setPc_faultIr : (setPc p s).faultIr = s.faultIr := rfl
@[simp] theorem setPc_mem : (setPc p s).mem = s.mem := rfl
@[simp] theorem setPc_input : (setPc p s).input = s.input := rfl
@[simp] theorem setPc_output : (setPc p s).output = s.output := rfl
@[simp] theorem setPc_polls : (setPc p s).polls = s.polls := rfl
@[simp] theorem setPc_draws : (setPc p s).draws = s.draws := rfl
@[simp] theorem setPc_flushed : (setPc p s).flushed = s.flushed := rfl
@[simp] theorem setPc_held : (setPc p s).held = s.held := rfl
end

section
variable (s : State)
@[simp] theorem saveLink_regs : (saveLink s).regs = s.regs.set Param.link s.pc := rfl
@[simp] theorem saveLink_pc : (saveLink s).pc = s.pc := rfl
@[simp] theorem saveLink_cond : (saveLink s).cond = s.cond := rfl
@[simp] theorem saveLink_running : (saveLink s).running = s.running := rfl
@[simp] theorem saveLink_fault : (saveLink s).fault = s.fault := rfl
@[simp] theorem saveLink_faultIr : (saveLink s).faultIr = s.faultIr := rfl
@[simp] theorem saveLink_mem : (saveLink s).mem = s.mem := rfl
@[simp] theorem saveLink_input : (saveLink s).input = s.input := rfl
@[simp] theorem saveLink_output : (saveLink s).output = s.output := rfl
@[simp] theorem saveLink_polls : (saveLink s).polls = s.polls := rfl
@[simp] theorem saveLink_draws : (saveLink s).draws = s.draws := rfl
@[simp] theorem saveLink_flushed : (saveLink s).flushed = s.flushed := rfl
@[simp] theorem saveLink_held : (saveLink s).held = s.held := rfl
end

section
variable (a v : Word) (s : State)
@[simp] theorem memWrite_regs : (memWrite a v s).regs = s.regs := rfl
@[simp] theorem memWrite_pc : (memWrite a v s).pc = s.pc := rfl
@[simp] theorem memWrite_cond : (memWrite a v s).cond = s.cond := rfl
@[simp] theorem memWrite_running : (memWrite a v s).running = s.running := rfl
@[simp] theorem memWrite_fault : (memWrite a v s).fault = s.fault := rfl
@[simp] theorem memWrite_faultIr : (memWrite a v s).faultIr = s.faultIr := rfl
@[simp] theorem memWrite_mem : (memWrite a v s).mem = s.mem.writeWord a v := rfl
@[simp] theorem memWrite_input : (memWrite a v s).input = s.input := rfl
@[simp] theorem memWrite_output : (memWrite a v s).output = s.output := rfl
@[simp] theorem memWrite_polls : (memWrite a v s).polls = s.polls := rfl
@[simp] theorem memWrite_draws : (memWrite a v s).draws = s.draws := rfl
@[simp] theorem memWrite_flushed : (memWrite a v s).flushed = s.flushed := rfl
@[simp] theorem memWrite_held : (memWrite a v s).held = s.held := rfl
end

section
variable (bs : List Byte) (s : State)
@[simp] theorem conOut_regs : (conOut bs s).regs = s.regs := rfl
@[simp] theorem conOut_pc : (conOut bs s).pc = s.pc := rfl
@[simp] theorem conOut_cond : (conOut bs s).cond = s.cond := rfl
@[simp] theorem conOut_running : (conOut bs s).running = s.running := rfl
@[simp] theorem conOut_fault : (conOut bs s).fault = s.fault := rfl
@[simp] theorem conOut_faultIr : (conOut bs s).faultIr = s.faultIr := rfl
@[simp] theorem conOut_mem : (conOut bs s).mem = s.mem := rfl
@[simp] theorem conOut_input : (conOut bs s).input = s.input := rfl
@[simp] theorem conOut_output : (conOut bs s).output = s.output ++ bs := rfl
@[simp] theorem conOut_polls : (conOut bs s).polls = s.polls := rfl
@[simp] theorem conOut_draws : (conOut bs s).draws = s.draws := rfl
@[simp] theorem conOut_flushed : (conOut bs s).flushed = s.flushed := rfl
@[simp] theorem conOut_held : (conOut bs s).held = s.held := rfl
end

section
variable (s : State)
@[simp] theorem conFlush_regs : (conFlush s).regs = s.regs := rfl
@[simp] theorem conFlush_pc : (conFlush s).pc = s.pc := rfl
@[simp] theorem conFlush_cond : (conFlush s).cond = s.cond := rfl
@[simp] theorem conFlush_running : (conFlush s).running = s.running := rfl
@[simp] theorem conFlush_fault : (conFlush s).fault = s.fault := rfl
@[simp] theorem conFlush_faultIr : (conFlush s).faultIr = s.faultIr := rfl
@[simp] theorem conFlush_mem : (conFlush s).mem = s.mem := rfl
@[simp] theorem conFlush_input : (conFlush s).input = s.input := rfl
@[simp] theorem conFlush_output : (conFlush s).output = s.output := rfl
@[simp] theorem conFlush_polls : (conFlush s).polls = s.polls := rfl
@[simp] theorem conFlush_draws : (conFlush s).draws = s.draws := rfl
@[simp] theorem conFlush_flushed : (conFlush s).flushed = s.output.length := rfl
@[simp] theorem conFlush_held : (conFlush s).held = s.held := rfl
end

section
variable (ir : Word) (s : State)
@[simp] theorem raiseReservedOpcode_regs : (raiseReservedOpcode ir s).regs = s.regs := rfl
@[simp] theorem raiseReservedOpcode_pc : (raiseReservedOpcode ir s).pc = s.pc := rfl
@[simp] theorem raiseReservedOpcode_cond : (raiseReservedOpcode ir s).cond = s.cond := rfl
@[simp] theorem raiseReservedOpcode_running : (raiseReservedOpcode ir s).running = s.running := rfl
@[simp] theorem raiseReservedOpcode_fault : (raiseReservedOpcode ir s).fault = true := rfl
@[simp] theorem raiseReservedOpcode_faultIr : (raiseReservedOpcode ir s).faultIr = ir := rfl
@[simp] theorem raiseReservedOpcode_mem : (raiseReservedOpcode ir s).mem = s.mem := rfl
@[simp] theorem raiseReservedOpcode_input : (raiseReservedOpcode ir s).input = s.input := rfl
@[simp] theorem raiseReservedOpcode_output : (raiseReservedOpcode ir s).output = s.output := rfl
@[simp] theorem raiseReservedOpcode_polls : (raiseReservedOpcode ir s).polls = s.polls := rfl
@[simp] theorem raiseReservedOpcode_draws : (raiseReservedOpcode ir s).draws = s.draws := rfl
@[simp] theorem raiseReservedOpcode_flushed : (raiseReservedOpcode ir s).flushed = s.flushed := rfl
@[simp] theorem raiseReservedOpcode_held : (raiseReservedOpcode ir s).held = s.held := rfl
end

section
variable (s : State)
@[simp] theorem layPolls_regs : (layPolls s).regs = s.regs := rfl
@[simp] theorem layPolls_pc : (layPolls s).pc = s.pc := rfl
@[simp] theorem layPolls_cond : (layPolls s).cond = s.cond := rfl
@[simp] theorem layPolls_running : (layPolls s).running = s.running := rfl
@[simp] theorem layPolls_fault : (layPolls s).fault = s.fault := rfl
@[simp] theorem layPolls_faultIr : (layPolls s).faultIr = s.faultIr := rfl
@[simp] theorem layPolls_mem : (layPolls s).mem = s.mem := rfl
@[simp] theorem layPolls_input : (layPolls s).input = s.input := rfl
@[simp] theorem layPolls_output : (layPolls s).output = s.output := rfl
@[simp] theorem layPolls_flushed : (layPolls s).flushed = s.flushed := rfl
@[simp] theorem layPolls_held : (layPolls s).held = s.held := rfl
@[simp] theorem layPolls_draws : (layPolls s).draws = s.draws + 1 := rfl
end

section
variable (h : Held) (s : State)
@[simp] theorem hold_regs : (hold h s).regs = s.regs := rfl
@[simp] theorem hold_pc : (hold h s).pc = s.pc - 1 := rfl
@[simp] theorem hold_cond : (hold h s).cond = s.cond := rfl
@[simp] theorem hold_running : (hold h s).running = s.running := rfl
@[simp] theorem hold_fault : (hold h s).fault = s.fault := rfl
@[simp] theorem hold_faultIr : (hold h s).faultIr = s.faultIr := rfl
@[simp] theorem hold_mem : (hold h s).mem = s.mem := rfl
@[simp] theorem hold_input : (hold h s).input = s.input := rfl
@[simp] theorem hold_output : (hold h s).output = s.output := rfl
@[simp] theorem hold_polls : (hold h s).polls = s.polls := rfl
@[simp] theorem hold_draws : (hold h s).draws = s.draws := rfl
@[simp] theorem hold_flushed : (hold h s).flushed = s.flushed := rfl
@[simp] theorem hold_held : (hold h s).held = some h := rfl
end

section
variable (s : State)
@[simp] theorem complete_regs : (complete s).regs = s.regs := rfl
@[simp] theorem complete_pc : (complete s).pc = s.pc := rfl
@[simp] theorem complete_cond : (complete s).cond = s.cond := rfl
@[simp] theorem complete_running : (complete s).running = s.running := rfl
@[simp] theorem complete_fault : (complete s).fault = s.fault := rfl
@[simp] theorem complete_faultIr : (complete s).faultIr = s.faultIr := rfl
@[simp] theorem complete_mem : (complete s).mem = s.mem := rfl
@[simp] theorem complete_input : (complete s).input = s.input := rfl
@[simp] theorem complete_output : (complete s).output = s.output := rfl
@[simp] theorem complete_polls : (complete s).polls = s.polls := rfl
@[simp] theorem complete_draws : (complete s).draws = s.draws := rfl
@[simp] theorem complete_flushed : (complete s).flushed = s.flushed := rfl
@[simp] theorem complete_held : (complete s).held = none := rfl
end

section
variable (i : Reg) (s : State)
@[simp] theorem setcc_regs : (setcc i s).regs = s.regs := rfl
@[simp] theorem setcc_pc : (setcc i s).pc = s.pc := rfl
@[simp] theorem setcc_cond : (setcc i s).cond = condOf (readReg i s) := rfl
@[simp] theorem setcc_running : (setcc i s).running = s.running := rfl
@[simp] theorem setcc_fault : (setcc i s).fault = s.fault := rfl
@[simp] theorem setcc_faultIr : (setcc i s).faultIr = s.faultIr := rfl
@[simp] theorem setcc_mem : (setcc i s).mem = s.mem := rfl
@[simp] theorem setcc_input : (setcc i s).input = s.input := rfl
@[simp] theorem setcc_output : (setcc i s).output = s.output := rfl
@[simp] theorem setcc_polls : (setcc i s).polls = s.polls := rfl
@[simp] theorem setcc_draws : (setcc i s).draws = s.draws := rfl
@[simp] theorem setcc_flushed : (setcc i s).flushed = s.flushed := rfl
@[simp] theorem setcc_held : (setcc i s).held = s.held := rfl
end

section
variable (d : Reg) (v : Word) (s : State)
@[simp] theorem defineReg_regs : (defineReg d v s).regs = s.regs.set d v := rfl
@[simp] theorem defineReg_pc : (defineReg d v s).pc = s.pc := rfl
@[simp] theorem defineReg_running : (defineReg d v s).running = s.running := rfl
@[simp] theorem defineReg_fault : (defineReg d v s).fault = s.fault := rfl
@[simp] theorem defineReg_faultIr : (defineReg d v s).faultIr = s.faultIr := rfl
@[simp] theorem defineReg_mem : (defineReg d v s).mem = s.mem := rfl
@[simp] theorem defineReg_input : (defineReg d v s).input = s.input := rfl
@[simp] theorem defineReg_output : (defineReg d v s).output = s.output := rfl
@[simp] theorem defineReg_polls : (defineReg d v s).polls = s.polls := rfl
@[simp] theorem defineReg_draws : (defineReg d v s).draws = s.draws := rfl
@[simp] theorem defineReg_flushed : (defineReg d v s).flushed = s.flushed := rfl
@[simp] theorem defineReg_held : (defineReg d v s).held = s.held := rfl
end

/-! ### Reading a register -/

@[simp] theorem readReg_writeReg_same (i : Reg) (v : Word) (s : State) :
    readReg i (writeReg i v s) = v := by
  show (s.regs.set i v)[(i : Nat)] = v
  exact Vector.getElem_set_self _

theorem readReg_writeReg_of_ne {i j : Reg} (h : j ≠ i) (v : Word) (s : State) :
    readReg j (writeReg i v s) = readReg j s := by
  have : (i : Nat) ≠ j := fun e => h (Fin.ext e.symm)
  show (s.regs.set i v)[(j : Nat)] = s.regs[(j : Nat)]
  exact Vector.getElem_set_ne _ _ this

/-- Two states with the same register file read alike. -/
theorem readReg_congr {s t : State} (h : t.regs = s.regs) (i : Reg) : readReg i t = readReg i s := by
  simp only [readReg, h]

@[simp] theorem readReg_setPc (p : Word) (s : State) (j : Reg) : readReg j (setPc p s) = readReg j s := rfl
@[simp] theorem readReg_memWrite (a v : Word) (s : State) (j : Reg) : readReg j (memWrite a v s) = readReg j s := rfl
@[simp] theorem readReg_conOut (bs : List Byte) (s : State) (j : Reg) : readReg j (conOut bs s) = readReg j s := rfl
@[simp] theorem readReg_conFlush (s : State) (j : Reg) : readReg j (conFlush s) = readReg j s := rfl
@[simp] theorem readReg_raiseReservedOpcode (ir : Word) (s : State) (j : Reg) : readReg j (raiseReservedOpcode ir s) = readReg j s := rfl
@[simp] theorem readReg_hold (h : Held) (s : State) (j : Reg) : readReg j (hold h s) = readReg j s := rfl
@[simp] theorem readReg_layPolls (s : State) (j : Reg) : readReg j (layPolls s) = readReg j s := rfl
@[simp] theorem readReg_complete (s : State) (j : Reg) : readReg j (complete s) = readReg j s := rfl
@[simp] theorem readReg_setcc (i : Reg) (s : State) (j : Reg) : readReg j (setcc i s) = readReg j s := rfl

@[simp] theorem readReg_defineReg_same (d : Reg) (v : Word) (s : State) :
    readReg d (defineReg d v s) = v := readReg_writeReg_same d v s

theorem readReg_defineReg_of_ne {d j : Reg} (h : j ≠ d) (v : Word) (s : State) :
    readReg j (defineReg d v s) = readReg j s := readReg_writeReg_of_ne h v s

@[simp] theorem readReg_saveLink_link (s : State) : readReg Param.link (saveLink s) = s.pc :=
  readReg_writeReg_same _ _ _

theorem readReg_saveLink_of_ne {j : Reg} (h : j ≠ Param.link) (s : State) :
    readReg j (saveLink s) = readReg j s := readReg_writeReg_of_ne h _ _

/-- The flags a destination write sets are those of the value written. -/
@[simp] theorem defineReg_cond (d : Reg) (v : Word) (s : State) :
    (defineReg d v s).cond = condOf v := by
  show condOf (readReg d (writeReg d v s)) = condOf v
  rw [readReg_writeReg_same]

end Sys2Proof.Machine
end

