-- ==== Sys2Proof/Laws/Ops.lean ====
section
/-! SUPPORT. What the shared operations can do, said once: the keyboard, the memory access layer, and the
loop of PUTS and PUTSP. -/

namespace Sys2Proof.Machine

/-! ### Keyboard reads change the keyboard's fields alone -/

@[simp] theorem kbdAvail_regs (s : State) : (kbdAvail s).2.regs = s.regs := by
  unfold kbdAvail; split <;> rfl
@[simp] theorem kbdAvail_pc (s : State) : (kbdAvail s).2.pc = s.pc := by
  unfold kbdAvail; split <;> rfl
@[simp] theorem kbdAvail_cond (s : State) : (kbdAvail s).2.cond = s.cond := by
  unfold kbdAvail; split <;> rfl
@[simp] theorem kbdAvail_running (s : State) : (kbdAvail s).2.running = s.running := by
  unfold kbdAvail; split <;> rfl
@[simp] theorem kbdAvail_fault (s : State) : (kbdAvail s).2.fault = s.fault := by
  unfold kbdAvail; split <;> rfl
@[simp] theorem kbdAvail_faultIr (s : State) : (kbdAvail s).2.faultIr = s.faultIr := by
  unfold kbdAvail; split <;> rfl
@[simp] theorem kbdAvail_output (s : State) : (kbdAvail s).2.output = s.output := by
  unfold kbdAvail; split <;> rfl
@[simp] theorem kbdAvail_flushed (s : State) : (kbdAvail s).2.flushed = s.flushed := by
  unfold kbdAvail; split <;> rfl
@[simp] theorem kbdAvail_held (s : State) : (kbdAvail s).2.held = s.held := by
  unfold kbdAvail; split <;> rfl
@[simp] theorem kbdAvail_mem (s : State) : (kbdAvail s).2.mem = s.mem := by
  unfold kbdAvail; split <;> rfl

@[simp] theorem kbdTake_regs (s : State) : (kbdTake s).2.regs = s.regs := by
  unfold kbdTake; split <;> rfl
@[simp] theorem kbdTake_pc (s : State) : (kbdTake s).2.pc = s.pc := by
  unfold kbdTake; split <;> rfl
@[simp] theorem kbdTake_cond (s : State) : (kbdTake s).2.cond = s.cond := by
  unfold kbdTake; split <;> rfl
@[simp] theorem kbdTake_running (s : State) : (kbdTake s).2.running = s.running := by
  unfold kbdTake; split <;> rfl
@[simp] theorem kbdTake_fault (s : State) : (kbdTake s).2.fault = s.fault := by
  unfold kbdTake; split <;> rfl
@[simp] theorem kbdTake_faultIr (s : State) : (kbdTake s).2.faultIr = s.faultIr := by
  unfold kbdTake; split <;> rfl
@[simp] theorem kbdTake_output (s : State) : (kbdTake s).2.output = s.output := by
  unfold kbdTake; split <;> rfl
@[simp] theorem kbdTake_flushed (s : State) : (kbdTake s).2.flushed = s.flushed := by
  unfold kbdTake; split <;> rfl
@[simp] theorem kbdTake_held (s : State) : (kbdTake s).2.held = s.held := by
  unfold kbdTake; split <;> rfl
@[simp] theorem kbdTake_mem (s : State) : (kbdTake s).2.mem = s.mem := by
  unfold kbdTake; split <;> rfl

@[simp] theorem kbdRead_regs (s : State) : (kbdRead s).2.regs = s.regs := by
  unfold kbdRead; split <;> rfl
@[simp] theorem kbdRead_pc (s : State) : (kbdRead s).2.pc = s.pc := by
  unfold kbdRead; split <;> rfl
@[simp] theorem kbdRead_cond (s : State) : (kbdRead s).2.cond = s.cond := by
  unfold kbdRead; split <;> rfl
@[simp] theorem kbdRead_running (s : State) : (kbdRead s).2.running = s.running := by
  unfold kbdRead; split <;> rfl
@[simp] theorem kbdRead_fault (s : State) : (kbdRead s).2.fault = s.fault := by
  unfold kbdRead; split <;> rfl
@[simp] theorem kbdRead_faultIr (s : State) : (kbdRead s).2.faultIr = s.faultIr := by
  unfold kbdRead; split <;> rfl
@[simp] theorem kbdRead_output (s : State) : (kbdRead s).2.output = s.output := by
  unfold kbdRead; split <;> rfl
@[simp] theorem kbdRead_flushed (s : State) : (kbdRead s).2.flushed = s.flushed := by
  unfold kbdRead; split <;> rfl
@[simp] theorem kbdRead_held (s : State) : (kbdRead s).2.held = s.held := by
  unfold kbdRead; split <;> rfl
@[simp] theorem kbdRead_mem (s : State) : (kbdRead s).2.mem = s.mem := by
  unfold kbdRead; split <;> rfl

@[simp] theorem kbdAvail_input (s : State) : (kbdAvail s).2.input = s.input := by
  unfold kbdAvail; split <;> rfl
@[simp] theorem kbdTake_polls (s : State) : (kbdTake s).2.polls = s.polls := by
  unfold kbdTake; split <;> rfl
@[simp] theorem kbdRead_polls (s : State) : (kbdRead s).2.polls = s.polls := by
  unfold kbdRead; split <;> rfl

/-- A read takes the first byte of `input`, or leaves `input` empty: bytes go in order, each once (R154). -/
theorem kbdTake_input (s : State) : (kbdTake s).2.input = s.input.tail := by
  unfold kbdTake; split <;> simp_all

theorem kbdRead_input (s : State) : (kbdRead s).2.input = s.input.tail := by
  unfold kbdRead; split <;> simp_all

/-! ### The interception of a read of `KBSR` -/

@[simp] theorem pollKeyboard_regs (s : State) : (pollKeyboard s).regs = s.regs := by
  unfold pollKeyboard; dsimp only; split <;> simp
@[simp] theorem pollKeyboard_pc (s : State) : (pollKeyboard s).pc = s.pc := by
  unfold pollKeyboard; dsimp only; split <;> simp
@[simp] theorem pollKeyboard_cond (s : State) : (pollKeyboard s).cond = s.cond := by
  unfold pollKeyboard; dsimp only; split <;> simp
@[simp] theorem pollKeyboard_running (s : State) : (pollKeyboard s).running = s.running := by
  unfold pollKeyboard; dsimp only; split <;> simp
@[simp] theorem pollKeyboard_fault (s : State) : (pollKeyboard s).fault = s.fault := by
  unfold pollKeyboard; dsimp only; split <;> simp
@[simp] theorem pollKeyboard_faultIr (s : State) : (pollKeyboard s).faultIr = s.faultIr := by
  unfold pollKeyboard; dsimp only; split <;> simp
@[simp] theorem pollKeyboard_output (s : State) : (pollKeyboard s).output = s.output := by
  unfold pollKeyboard; dsimp only; split <;> simp
@[simp] theorem pollKeyboard_flushed (s : State) : (pollKeyboard s).flushed = s.flushed := by
  unfold pollKeyboard; dsimp only; split <;> simp
@[simp] theorem pollKeyboard_held (s : State) : (pollKeyboard s).held = s.held := by
  unfold pollKeyboard; dsimp only; split <;> simp

/-- A poll that finds a key: the ready word, the byte read, one input byte consumed (R31). -/
theorem pollKeyboard_key {s : State} (h : (kbdAvail s).1 = true) :
    pollKeyboard s =
      { (kbdTake (kbdAvail s).2).2 with
        mem := (s.mem.writeWord Param.kbsr 0x8000).writeWord Param.kbdr
          (zext8 (kbdTake (kbdAvail s).2).1) } := by
  unfold pollKeyboard kbdTake memWrite
  simp only [h, if_true]
  split <;> simp

/-- A poll that finds none: the status word is cleared, nothing is consumed (R31). -/
theorem pollKeyboard_no_key {s : State} (h : (kbdAvail s).1 = false) :
    pollKeyboard s = memWrite Param.kbsr 0 (kbdAvail s).2 := by
  unfold pollKeyboard
  simp [h]

/-- The interception writes the two keyboard words and no other byte. -/
theorem pollKeyboard_readByte (s : State) {k : Nat} (h0 : k / 2 ≠ Param.kbsr.toNat)
    (h2 : k / 2 ≠ Param.kbdr.toNat) : (pollKeyboard s).mem.readByte k = s.mem.readByte k := by
  cases h : (kbdAvail s).1
  · rw [pollKeyboard_no_key h]
    simp [Memory.readByte_writeWord_of_ne _ h0]
  · rw [pollKeyboard_key h]
    simp [Memory.readByte_writeWord_of_ne _ h0, Memory.readByte_writeWord_of_ne _ h2]

/-- After the interception the status word is the answer of the poll: 0x8000 or 0 (R35). -/
theorem pollKeyboard_kbsr (s : State) :
    (pollKeyboard s).mem.readWord Param.kbsr = if (kbdAvail s).1 then 0x8000 else 0 := by
  have hne : Param.kbsr ≠ Param.kbdr := by decide
  cases h : (kbdAvail s).1
  · rw [pollKeyboard_no_key h]; simp
  · rw [pollKeyboard_key h]; simp [Memory.readWord_writeWord_of_ne _ hne]

theorem pollKeyboard_wf {s : State} (h : s.mem.wf) : (pollKeyboard s).mem.wf := by
  cases hk : (kbdAvail s).1
  · rw [pollKeyboard_no_key hk]; simpa using Memory.wf_writeWord h _ _
  · rw [pollKeyboard_key hk]; exact Memory.wf_writeWord (Memory.wf_writeWord h _ _) _ _

/-! ### The memory access layer -/

/-- A read of any address but `KBSR` is plain (R32). -/
theorem memRead_of_ne {a : Word} (h : a ≠ Param.kbsr) (s : State) : memRead a s = (s.mem.readWord a, s) := by
  simp [memRead, h]

/-- A read of `KBSR` polls (R31). -/
theorem memRead_kbsr (s : State) :
    memRead Param.kbsr s = (if (kbdAvail s).1 then 0x8000 else 0, pollKeyboard s) := by
  simp [memRead, pollKeyboard_kbsr]

/-- The state a read leaves: the same, or polled. -/
theorem memRead_state (a : Word) (s : State) : (memRead a s).2 = s ∨ (memRead a s).2 = pollKeyboard s := by
  unfold memRead; dsimp only; split <;> simp

/-- The word a read answers is the word then stored. -/
theorem memRead_value (a : Word) (s : State) : (memRead a s).1 = (memRead a s).2.mem.readWord a := rfl

@[simp] theorem memRead_regs (a : Word) (s : State) : (memRead a s).2.regs = s.regs := by
  rcases memRead_state a s with h | h <;> simp [h]
@[simp] theorem memRead_pc (a : Word) (s : State) : (memRead a s).2.pc = s.pc := by
  rcases memRead_state a s with h | h <;> simp [h]
@[simp] theorem memRead_cond (a : Word) (s : State) : (memRead a s).2.cond = s.cond := by
  rcases memRead_state a s with h | h <;> simp [h]
@[simp] theorem memRead_running (a : Word) (s : State) : (memRead a s).2.running = s.running := by
  rcases memRead_state a s with h | h <;> simp [h]
@[simp] theorem memRead_fault (a : Word) (s : State) : (memRead a s).2.fault = s.fault := by
  rcases memRead_state a s with h | h <;> simp [h]
@[simp] theorem memRead_faultIr (a : Word) (s : State) : (memRead a s).2.faultIr = s.faultIr := by
  rcases memRead_state a s with h | h <;> simp [h]
@[simp] theorem memRead_output (a : Word) (s : State) : (memRead a s).2.output = s.output := by
  rcases memRead_state a s with h | h <;> simp [h]
@[simp] theorem memRead_flushed (a : Word) (s : State) : (memRead a s).2.flushed = s.flushed := by
  rcases memRead_state a s with h | h <;> simp [h]
@[simp] theorem memRead_held (a : Word) (s : State) : (memRead a s).2.held = s.held := by
  rcases memRead_state a s with h | h <;> simp [h]

@[simp] theorem readReg_memRead (i : Reg) (a : Word) (s : State) : readReg i (memRead a s).2 = readReg i s :=
  readReg_congr (memRead_regs a s) i

theorem memRead_wf {s : State} (h : s.mem.wf) (a : Word) : (memRead a s).2.mem.wf := by
  rcases memRead_state a s with e | e <;> rw [e]
  · exact h
  · exact pollKeyboard_wf h

/-- A read writes no byte but those of the two keyboard words. -/
theorem memRead_readByte (a : Word) (s : State) {k : Nat} (h0 : k / 2 ≠ Param.kbsr.toNat)
    (h2 : k / 2 ≠ Param.kbdr.toNat) : (memRead a s).2.mem.readByte k = s.mem.readByte k := by
  rcases memRead_state a s with e | e <;> rw [e]
  exact pollKeyboard_readByte s h0 h2

/-- Input bytes are taken from the front, in order. -/
theorem memRead_input_suffix (a : Word) (s : State) : ∃ pre, s.input = pre ++ (memRead a s).2.input := by
  rcases memRead_state a s with e | e <;> rw [e]
  · exact ⟨[], rfl⟩
  · cases h : (kbdAvail s).1
    · exact ⟨[], by rw [pollKeyboard_no_key h]; simp⟩
    · rw [pollKeyboard_key h]
      refine ⟨s.input.take 1, ?_⟩
      cases hi : s.input <;> simp [kbdTake_input, hi]

/-! ### The loop of PUTS and PUTSP -/

/-- What every read and every emission keeps, the loop keeps. -/
theorem stringPass_keeps {P : State → Prop} (emit : Word → List Byte)
    (hread : ∀ a s, P s → P (memRead a s).2) (hout : ∀ bs s, P s → P (conOut bs s)) :
    ∀ (n : Nat) (a : Word) (s : State), P s → P (stringPass emit n a s).2
  | 0, _, _, h => h
  | n + 1, a, s, h => by
    unfold stringPass
    split
    · exact hread a s h
    · exact stringPass_keeps emit hread hout n _ _ (hout _ _ (hread a s h))

@[simp] theorem stringPass_regs (emit : Word → List Byte) (n : Nat) (a : Word) (s : State) :
    (stringPass emit n a s).2.regs = s.regs :=
  stringPass_keeps (P := fun t => t.regs = s.regs) emit (fun _ _ h => by simpa using h) (fun _ _ h => by simpa using h) n a s rfl
@[simp] theorem stringPass_pc (emit : Word → List Byte) (n : Nat) (a : Word) (s : State) :
    (stringPass emit n a s).2.pc = s.pc :=
  stringPass_keeps (P := fun t => t.pc = s.pc) emit (fun _ _ h => by simpa using h) (fun _ _ h => by simpa using h) n a s rfl
@[simp] theorem stringPass_cond (emit : Word → List Byte) (n : Nat) (a : Word) (s : State) :
    (stringPass emit n a s).2.cond = s.cond :=
  stringPass_keeps (P := fun t => t.cond = s.cond) emit (fun _ _ h => by simpa using h) (fun _ _ h => by simpa using h) n a s rfl
@[simp] theorem stringPass_running (emit : Word → List Byte) (n : Nat) (a : Word) (s : State) :
    (stringPass emit n a s).2.running = s.running :=
  stringPass_keeps (P := fun t => t.running = s.running) emit (fun _ _ h => by simpa using h) (fun _ _ h => by simpa using h) n a s rfl
@[simp] theorem stringPass_fault (emit : Word → List Byte) (n : Nat) (a : Word) (s : State) :
    (stringPass emit n a s).2.fault = s.fault :=
  stringPass_keeps (P := fun t => t.fault = s.fault) emit (fun _ _ h => by simpa using h) (fun _ _ h => by simpa using h) n a s rfl
@[simp] theorem stringPass_faultIr (emit : Word → List Byte) (n : Nat) (a : Word) (s : State) :
    (stringPass emit n a s).2.faultIr = s.faultIr :=
  stringPass_keeps (P := fun t => t.faultIr = s.faultIr) emit (fun _ _ h => by simpa using h) (fun _ _ h => by simpa using h) n a s rfl
@[simp] theorem stringPass_flushed (emit : Word → List Byte) (n : Nat) (a : Word) (s : State) :
    (stringPass emit n a s).2.flushed = s.flushed :=
  stringPass_keeps (P := fun t => t.flushed = s.flushed) emit (fun _ _ h => by simpa using h) (fun _ _ h => by simpa using h) n a s rfl
@[simp] theorem stringPass_held (emit : Word → List Byte) (n : Nat) (a : Word) (s : State) :
    (stringPass emit n a s).2.held = s.held :=
  stringPass_keeps (P := fun t => t.held = s.held) emit (fun _ _ h => by simpa using h) (fun _ _ h => by simpa using h) n a s rfl

theorem stringPass_wf (emit : Word → List Byte) (n : Nat) (a : Word) {s : State} (h : s.mem.wf) :
    (stringPass emit n a s).2.mem.wf :=
  stringPass_keeps (P := fun t => t.mem.wf) emit (fun a _ h => memRead_wf h a) (fun _ _ h => h) n a s h

theorem stringPass_readByte (emit : Word → List Byte) (n : Nat) (a : Word) (s : State) {k : Nat}
    (h0 : k / 2 ≠ Param.kbsr.toNat) (h2 : k / 2 ≠ Param.kbdr.toNat) :
    (stringPass emit n a s).2.mem.readByte k = s.mem.readByte k :=
  stringPass_keeps (P := fun t => t.mem.readByte k = s.mem.readByte k) emit
    (fun a t h => (memRead_readByte a t h0 h2).trans h) (fun _ _ h => h) n a s rfl

/-- The loop appends to the output. -/
theorem stringPass_output_prefix (emit : Word → List Byte) (n : Nat) (a : Word) (s : State) :
    ∃ bs, (stringPass emit n a s).2.output = s.output ++ bs :=
  stringPass_keeps (P := fun t => ∃ bs, t.output = s.output ++ bs) emit
    (fun a t ⟨bs, h⟩ => ⟨bs, by simp [h]⟩)
    (fun cs t ⟨bs, h⟩ => ⟨bs ++ cs, by simp [h]⟩) n a s ⟨[], by simp⟩

theorem stringPass_input_suffix (emit : Word → List Byte) (n : Nat) (a : Word) (s : State) :
    ∃ pre, s.input = pre ++ (stringPass emit n a s).2.input :=
  stringPass_keeps (P := fun t => ∃ pre, s.input = pre ++ t.input) emit
    (fun a t ⟨pre, h⟩ => by
      obtain ⟨pre', h'⟩ := memRead_input_suffix a t
      exact ⟨pre ++ pre', by rw [h, h', List.append_assoc]⟩)
    (fun _ _ h => h) n a s ⟨[], rfl⟩

/-- One word of the loop that is not zero. -/
theorem stringPass_cons {emit : Word → List Byte} {a : Word} {s : State} (h : (memRead a s).1 ≠ 0) (n : Nat) :
    stringPass emit (n + 1) a s =
      stringPass emit n (a + 1) (conOut (emit (memRead a s).1) (memRead a s).2) := by
  rw [stringPass, if_neg h]

/-- The zero word that ends the loop is not emitted. -/
theorem stringPass_zero {emit : Word → List Byte} {a : Word} {s : State} (h : (memRead a s).1 = 0) (n : Nat) :
    stringPass emit (n + 1) a s = (true, (memRead a s).2) := by
  rw [stringPass, if_pos h]

end Sys2Proof.Machine
end

