-- ==== Sys2Proof/Laws/PerInstr.lean ====
section
/-! SUPPORT. Statements made per instruction. `OpcodeField`: the top four bits of an instruction's word are
the number of its opcode (spec/30_encoding.md R50, R52), so the dispatch of R73 is read off the word. -/

namespace Sys2Proof.Laws.OpcodeField

def Statement (i : Instr) : Prop := (encode i).extractLsb' 12 4 = i.opcode.code

/-! The top four bits of each format of R51. The widths are kept as sums, so that the lemmas about
concatenation apply. -/

theorem top_of_MPC (c : BitVec 4) (a : BitVec 3) (b : BitVec 9) :
    BitVec.extractLsb' (n := 4+3+9) 12 4 (c ++ a ++ b) = c := by
  simp only [BitVec.extractLsb'_append_eq_of_le, Nat.reduceLeDiff, Nat.reduceSub, Nat.le_refl]
  exact BitVec.extractLsb'_eq_self

theorem top_of_RRR (c : BitVec 4) (a : BitVec 3) (b : BitVec 3) (d : BitVec 1) (e : BitVec 2) (f : BitVec 3) :
    BitVec.extractLsb' (n := 4+3+3+1+2+3) 12 4 (c ++ a ++ b ++ d ++ e ++ f) = c := by
  simp only [BitVec.extractLsb'_append_eq_of_le, Nat.reduceLeDiff, Nat.reduceSub, Nat.le_refl]
  exact BitVec.extractLsb'_eq_self

theorem top_of_RRI (c : BitVec 4) (a : BitVec 3) (b : BitVec 3) (d : BitVec 1) (e : BitVec 5) :
    BitVec.extractLsb' (n := 4+3+3+1+5) 12 4 (c ++ a ++ b ++ d ++ e) = c := by
  simp only [BitVec.extractLsb'_append_eq_of_le, Nat.reduceLeDiff, Nat.reduceSub, Nat.le_refl]
  exact BitVec.extractLsb'_eq_self

theorem top_of_MBO (c : BitVec 4) (a : BitVec 3) (b : BitVec 3) (d : BitVec 6) :
    BitVec.extractLsb' (n := 4+3+3+6) 12 4 (c ++ a ++ b ++ d) = c := by
  simp only [BitVec.extractLsb'_append_eq_of_le, Nat.reduceLeDiff, Nat.reduceSub, Nat.le_refl]
  exact BitVec.extractLsb'_eq_self

theorem top_of_JSR (c : BitVec 4) (a : BitVec 1) (b : BitVec 11) :
    BitVec.extractLsb' (n := 4+1+11) 12 4 (c ++ a ++ b) = c := by
  simp only [BitVec.extractLsb'_append_eq_of_le, Nat.reduceLeDiff, Nat.reduceSub, Nat.le_refl]
  exact BitVec.extractLsb'_eq_self

theorem top_of_JSRR (c : BitVec 4) (a : BitVec 1) (b : BitVec 2) (d : BitVec 3) (e : BitVec 6) :
    BitVec.extractLsb' (n := 4+1+2+3+6) 12 4 (c ++ a ++ b ++ d ++ e) = c := by
  simp only [BitVec.extractLsb'_append_eq_of_le, Nat.reduceLeDiff, Nat.reduceSub, Nat.le_refl]
  exact BitVec.extractLsb'_eq_self

theorem top_of_RSV (c : BitVec 4) (a : BitVec 12) :
    BitVec.extractLsb' (n := 4+12) 12 4 (c ++ a) = c := by
  simp only [BitVec.extractLsb'_append_eq_of_le, Nat.reduceSub, Nat.le_refl]
  exact BitVec.extractLsb'_eq_self

theorem top_of_TRAP (c : BitVec 4) (a : BitVec 4) (b : BitVec 8) :
    BitVec.extractLsb' (n := 4+4+8) 12 4 (c ++ a ++ b) = c := by
  simp only [BitVec.extractLsb'_append_eq_of_le, Nat.reduceLeDiff, Nat.reduceSub, Nat.le_refl]
  exact BitVec.extractLsb'_eq_self

theorem br (nzp : BitVec 3) (off : BitVec 9) : Statement (.br nzp off) := top_of_MPC _ _ _
theorem add (dr sr1 sr2 : Reg) : Statement (.add dr sr1 sr2) := top_of_RRR _ _ _ _ _ _
theorem addImm (dr sr1 : Reg) (imm : BitVec 5) : Statement (.addImm dr sr1 imm) := top_of_RRI _ _ _ _ _
theorem ld (dr : Reg) (off : BitVec 9) : Statement (.ld dr off) := top_of_MPC _ _ _
theorem st (sr : Reg) (off : BitVec 9) : Statement (.st sr off) := top_of_MPC _ _ _
theorem jsr (off : BitVec 11) : Statement (.jsr off) := top_of_JSR _ _ _
theorem jsrr (base : Reg) : Statement (.jsrr base) := top_of_JSRR _ _ _ _ _
theorem and (dr sr1 sr2 : Reg) : Statement (.and dr sr1 sr2) := top_of_RRR _ _ _ _ _ _
theorem andImm (dr sr1 : Reg) (imm : BitVec 5) : Statement (.andImm dr sr1 imm) := top_of_RRI _ _ _ _ _
theorem ldr (dr base : Reg) (off : BitVec 6) : Statement (.ldr dr base off) := top_of_MBO _ _ _ _
theorem str (sr base : Reg) (off : BitVec 6) : Statement (.str sr base off) := top_of_MBO _ _ _ _
theorem rti (low : BitVec 12) : Statement (.rti low) := top_of_RSV _ _
theorem not (dr sr1 : Reg) : Statement (.not dr sr1) := top_of_MBO _ _ _ _
theorem ldi (dr : Reg) (off : BitVec 9) : Statement (.ldi dr off) := top_of_MPC _ _ _
theorem sti (sr : Reg) (off : BitVec 9) : Statement (.sti sr off) := top_of_MPC _ _ _
theorem jmp (base : Reg) : Statement (.jmp base) := top_of_MBO _ _ _ _
theorem res (low : BitVec 12) : Statement (.res low) := top_of_RSV _ _
theorem lea (dr : Reg) (off : BitVec 9) : Statement (.lea dr off) := top_of_MPC _ _ _
theorem trapGetc : Statement .trapGetc := top_of_TRAP _ _ _
theorem trapOut : Statement .trapOut := top_of_TRAP _ _ _
theorem trapPuts : Statement .trapPuts := top_of_TRAP _ _ _
theorem trapIn : Statement .trapIn := top_of_TRAP _ _ _
theorem trapPutsp : Statement .trapPutsp := top_of_TRAP _ _ _
theorem trapHalt : Statement .trapHalt := top_of_TRAP _ _ _
theorem trapOther (vect : BitVec 8) : Statement (.trapOther vect) := top_of_TRAP _ _ _

end Sys2Proof.Laws.OpcodeField
end

