-- ==== Sys2Proof/Laws/Step.lean ====
section
/-! SUPPORT. What a step can do, said once. -/

namespace Sys2Proof.Machine

/-- A step that answers a next state is the idle step of a Halted machine, a fetched instruction of a Running
one, or a held step of a Running one going on. -/
theorem step_cases {s t : State} (h : step s = .next t) :
    (s.fault = false ∧ s.running = false ∧ t = s) ∨
      (s.fault = false ∧ s.running = true ∧ s.held = none ∧
        exec (decode (fetch s).1) (fetch s).2 = .next t) ∨
      ∃ k, s.fault = false ∧ s.running = true ∧ s.held = some k ∧
        exec (heldInstr k) (resume s) = .next t := by
  unfold step at h
  cases hf : s.fault
  · cases hr : s.running
    · simp [hf, hr] at h
      exact .inl ⟨rfl, rfl, h.symm⟩
    · simp only [hf, hr, if_true] at h
      cases hh : s.held with
      | none => exact .inr (.inl ⟨rfl, rfl, rfl, by simpa [hh] using h⟩)
      | some k => exact .inr (.inr ⟨k, rfl, rfl, rfl, by simpa [hh] using h⟩)
  · simp [hf] at h

/-- A fetch changes `pc` by one, and otherwise only what its read changes. -/
theorem fetch_eq (s : State) : fetch s = ((memRead s.pc s).1, setPc (s.pc + 1) (memRead s.pc s).2) := rfl

/-- The frame of one read, in the terms of the statements. -/
theorem memRead_effect (a : Word) (s : State) : ReadEffect a s (memRead a s).2 := by
  refine ⟨fun h => ?_, fun k h0 h2 => memRead_readByte a s h0 h2⟩
  rw [memRead_of_ne h]
  exact ⟨fun _ => rfl, rfl, rfl, rfl⟩

/-- The flag of a value, in the terms of the statements. -/
theorem condOf_flagOf (v : Word) : FlagOf v (condOf v) := by
  unfold condOf
  refine ⟨fun h => by simp [h], fun h h15 => ?_, fun h h15 => ?_⟩ <;> simp only [h, h15, if_false] <;> rfl

end Sys2Proof.Machine
end

