-- ==== Sys2Proof/Laws/Strings.lean ====
section
/-! SUPPORT. What PUTS and PUTSP can do, said once: a pass in parts, what a pass without a zero word has read, the
polls it makes, and how the services end. -/

namespace Sys2Proof.Machine

/-! ### One pass -/

/-- A pass in two parts. -/
theorem stringPass_add (emit : Word → List Byte) : ∀ (m n : Nat) (a : Word) (s : State),
    stringPass emit (m + n) a s =
      if (stringPass emit m a s).1 then stringPass emit m a s
      else stringPass emit n (a + BitVec.ofNat 16 m) (stringPass emit m a s).2
  | 0, n, a, s => by simp [stringPass]
  | m + 1, n, a, s => by
    have e : m + 1 + n = (m + n) + 1 := by omega
    have ea : a + 1 + BitVec.ofNat 16 m = a + BitVec.ofNat 16 (m + 1) := by
      rw [Nat.add_comm m 1, BitVec.ofNat_add, ← BitVec.add_assoc]
      rfl
    by_cases h : (memRead a s).1 = 0
    · rw [e, stringPass_zero h, stringPass_zero h]; rfl
    · rw [e, stringPass_cons h, stringPass_cons h, stringPass_add emit m n, ea]

/-- A pass that finds no zero word: so did its first part, and so does the rest from there. -/
theorem stringPass_add_false {emit : Word → List Byte} {m n : Nat} {a : Word} {s : State}
    (h : (stringPass emit (m + n) a s).1 = false) :
    (stringPass emit m a s).1 = false ∧
      stringPass emit (m + n) a s =
        stringPass emit n (a + BitVec.ofNat 16 m) (stringPass emit m a s).2 := by
  rw [stringPass_add] at h ⊢
  cases hm : (stringPass emit m a s).1
  · exact ⟨rfl, by simp⟩
  · simp [hm] at h

/-- A pass that finds no zero word has read every word of it as non-zero, at its turn. -/
theorem stringPass_false_read {emit : Word → List Byte} {n j : Nat} {a : Word} {s : State}
    (h : (stringPass emit n a s).1 = false) (hj : j < n) :
    (memRead (a + BitVec.ofNat 16 j) (stringPass emit j a s).2).1 ≠ 0 := by
  obtain ⟨k, rfl⟩ : ∃ k, n = j + (k + 1) := ⟨n - j - 1, by omega⟩
  intro hz
  rw [(stringPass_add_false h).2, stringPass_zero hz] at h
  cases h

/-- The same, in terms of the memory before the pass. -/
theorem stringPass_false_word {emit : Word → List Byte} {n j : Nat} {a : Word} {s : State}
    (h : (stringPass emit n a s).1 = false) (hj : j < n)
    (h0 : a + BitVec.ofNat 16 j ≠ Param.kbsr) (h2 : a + BitVec.ofNat 16 j ≠ Param.kbdr) :
    s.mem.readWord (a + BitVec.ofNat 16 j) ≠ 0 := by
  have hr := stringPass_false_read h hj
  rw [memRead_of_ne h0] at hr
  have n0 : (a + BitVec.ofNat 16 j).toNat ≠ Param.kbsr.toNat := fun e => h0 (BitVec.eq_of_toNat_eq e)
  have n2 : (a + BitVec.ofNat 16 j).toNat ≠ Param.kbdr.toNat := fun e => h2 (BitVec.eq_of_toNat_eq e)
  have hb : ∀ k, k / 2 = (a + BitVec.ofNat 16 j).toNat →
      (stringPass emit j a s).2.mem.readByte k = s.mem.readByte k := fun k hk =>
    stringPass_readByte emit j a s (by omega) (by omega)
  simpa only [Memory.readWord, hb (cellOf (a + BitVec.ofNat 16 j)) (by unfold cellOf; omega),
    hb (cellOf (a + BitVec.ofNat 16 j) + 1) (by unfold cellOf; omega)] using hr

/-- A pass away from `KBSR` makes no poll and reads no key. -/
theorem stringPass_keyboard (emit : Word → List Byte) : ∀ (n : Nat) (a : Word) (s : State),
    (∀ j, j < n → a + BitVec.ofNat 16 j ≠ Param.kbsr) →
    (stringPass emit n a s).2.polls = s.polls ∧ (stringPass emit n a s).2.input = s.input ∧
      (stringPass emit n a s).2.draws = s.draws ∧ (stringPass emit n a s).2.mem = s.mem
  | 0, _, _, _ => ⟨rfl, rfl, rfl, rfl⟩
  | n + 1, a, s, h => by
    have h0 : a ≠ Param.kbsr := by simpa using h 0 (by omega)
    have hr := memRead_of_ne h0 s
    by_cases hz : (memRead a s).1 = 0
    · rw [stringPass_zero hz, hr]; exact ⟨rfl, rfl, rfl, rfl⟩
    · rw [stringPass_cons hz, hr]
      refine stringPass_keyboard emit n (a + 1) _ fun j hj => ?_
      have := h (j + 1) (by omega)
      rwa [Nat.add_comm j 1, BitVec.ofNat_add, ← BitVec.add_assoc] at this

/-- Where the pass from `a` meets `KBSR`, and that it meets it once. -/
theorem kbsr_index (a : Word) :
    (Param.kbsr - a).toNat < passLength ∧ a + BitVec.ofNat 16 (Param.kbsr - a).toNat = Param.kbsr ∧
      ∀ j, j < passLength → a + BitVec.ofNat 16 j = Param.kbsr → j = (Param.kbsr - a).toNat := by
  refine ⟨(Param.kbsr - a).isLt, ?_, fun j hj e => ?_⟩
  · rw [BitVec.ofNat_toNat, BitVec.setWidth_eq, BitVec.add_comm, BitVec.sub_add_cancel]
  · have h16 : j < 2 ^ 16 := hj
    rw [← e, BitVec.add_comm, BitVec.add_sub_cancel, BitVec.toNat_ofNat, Nat.mod_eq_of_lt h16]

/-- A word read before `KBSR` is met is read as it was at the beginning. -/
theorem stringPass_false_before {emit : Word → List Byte} {n j : Nat} {a : Word} {s : State}
    (h : (stringPass emit n a s).1 = false) (hj : j < n)
    (hk : ∀ i, i ≤ j → a + BitVec.ofNat 16 i ≠ Param.kbsr) :
    s.mem.readWord (a + BitVec.ofNat 16 j) ≠ 0 := by
  have hr := stringPass_false_read h hj
  rw [memRead_of_ne (hk j (Nat.le_refl j))] at hr
  rwa [(stringPass_keyboard emit j a s fun i hi => hk i (by omega)).2.2.2] at hr

/-- A whole pass without a zero word is a part without a poll, a poll that finds a key, and a part without a poll.
`t` is the state in which `KBSR` is read, after `d` words; the words after it are read as the pass leaves
them. -/
theorem stringPass_whole {emit : Word → List Byte} {a : Word} {s : State}
    (h : (stringPass emit passLength a s).1 = false) :
    ∃ t, t.polls = s.polls ∧ t.input = s.input ∧ t.draws = s.draws ∧ t.mem = s.mem ∧
      (kbdAvail t).1 = true ∧
      (stringPass emit passLength a s).2.polls = (pollKeyboard t).polls ∧
      (stringPass emit passLength a s).2.input = (pollKeyboard t).input ∧
      (stringPass emit passLength a s).2.draws = (pollKeyboard t).draws ∧
      (stringPass emit passLength a s).2.mem = (pollKeyboard t).mem ∧
      ∀ j, (Param.kbsr - a).toNat < j → j < passLength →
        (stringPass emit passLength a s).2.mem.readWord (a + BitVec.ofNat 16 j) ≠ 0 := by
  obtain ⟨hd, he, hu⟩ := kbsr_index a
  generalize (Param.kbsr - a).toNat = d at hd he hu ⊢
  obtain ⟨k, hk⟩ : ∃ k, passLength = d + (k + 1) := ⟨passLength - d - 1, by omega⟩
  have hpre := stringPass_keyboard emit d a s fun j hj e => by have := hu j (by omega) e; omega
  have hz := stringPass_false_read h hd
  have hkey : (kbdAvail (stringPass emit d a s).2).1 = true := by
    rw [he, memRead_kbsr] at hz
    cases hav : (kbdAvail (stringPass emit d a s).2).1
    · simp [hav] at hz
    · rfl
  have hs : (memRead Param.kbsr (stringPass emit d a s).2).2 = pollKeyboard (stringPass emit d a s).2 := by
    rw [memRead_kbsr]
  have shift : ∀ j, Param.kbsr + 1 + BitVec.ofNat 16 j = a + BitVec.ofNat 16 (d + (j + 1)) := fun j => by
    rw [← he, BitVec.ofNat_add, Nat.add_comm j 1, BitVec.ofNat_add]
    simp only [BitVec.add_assoc]
    rfl
  have hne : ∀ j, j < k → Param.kbsr + 1 + BitVec.ofNat 16 j ≠ Param.kbsr := fun j hj e => by
    have := hu (d + (j + 1)) (by omega) (by rw [← shift]; exact e)
    omega
  rw [he] at hz
  rw [hk] at h ⊢
  have heq := (stringPass_add_false h).2
  rw [he, stringPass_cons hz, hs] at heq
  rw [heq] at h ⊢
  have hpost := stringPass_keyboard emit k _
    (conOut (emit (memRead Param.kbsr (stringPass emit d a s).2).1) (pollKeyboard (stringPass emit d a s).2)) hne
  refine ⟨(stringPass emit d a s).2, hpre.1, hpre.2.1, hpre.2.2.1, hpre.2.2.2, hkey,
    hpost.1, hpost.2.1, hpost.2.2.1, hpost.2.2.2, fun j hj hjk => ?_⟩
  obtain ⟨i, rfl⟩ : ∃ i, j = d + (i + 1) := ⟨j - d - 1, by omega⟩
  rw [← shift, hpost.2.2.2]
  exact stringPass_false_before h (by omega) fun i' hi' => hne i' (by omega)

/-- A whole pass without a zero word takes the first poll laid down, and that poll found a key. -/
theorem stringPass_whole_polls {emit : Word → List Byte} {a : Word} {s : State}
    (h : (stringPass emit passLength a s).1 = false) {p : Bool} {ps : List Bool} (hp : s.polls = p :: ps) :
    p = true ∧ (stringPass emit passLength a s).2.polls = ps := by
  obtain ⟨t, ht, _, _, _, hk, hpolls, _⟩ := stringPass_whole h
  rw [hp] at ht
  rw [hpolls, pollKeyboard_key hk]
  simp [kbdAvail, ht] at hk ⊢
  exact hk

/-- A word that no poll can change ends every pass over it. -/
theorem stringPass_whole_word {emit : Word → List Byte} {a : Word} {s : State}
    (h : (stringPass emit passLength a s).1 = false) {b : Word} (h0 : b ≠ Param.kbsr) (h2 : b ≠ Param.kbdr) :
    s.mem.readWord b ≠ 0 := by
  have e : a + BitVec.ofNat 16 (b - a).toNat = b := by
    rw [BitVec.ofNat_toNat, BitVec.setWidth_eq, BitVec.add_comm, BitVec.sub_add_cancel]
  have := stringPass_false_word h (j := (b - a).toNat) (b - a).isLt
  rw [e] at this
  exact this h0 h2

/-! ### The loop -/

/-- No pass: the words before the next poll. -/
theorem stringPasses_zero (emit : Word → List Byte) (a : Word) (s : State) :
    stringPasses emit 0 a s = stringPass emit (Param.kbsr - a).toNat a s := rfl

/-- One pass of the loop. -/
theorem stringPasses_succ (emit : Word → List Byte) (n : Nat) (a : Word) (s : State) :
    stringPasses emit (n + 1) a s =
      if (stringPass emit passLength a s).1 then stringPass emit passLength a s
      else stringPasses emit n a (stringPass emit passLength a s).2 := by
  rw [stringPasses]
  split
  · next t e => rw [e]; rfl
  · next t e => rw [e]; rfl

/-- What every read and every emission keeps, the loop keeps. -/
theorem stringPasses_keeps {P : State → Prop} (emit : Word → List Byte)
    (hread : ∀ a s, P s → P (memRead a s).2) (hout : ∀ bs s, P s → P (conOut bs s)) :
    ∀ (n : Nat) (a : Word) (s : State), P s → P (stringPasses emit n a s).2
  | 0, a, s, h => stringPass_keeps emit hread hout _ a s h
  | n + 1, a, s, h => by
    have hp := stringPass_keeps emit hread hout passLength a s h
    rw [stringPasses_succ]
    split
    · exact hp
    · exact stringPasses_keeps emit hread hout n a _ hp

/-- As many passes as polls are laid down, and no zero word: every one of those polls found a key. -/
theorem stringPasses_polls (emit : Word → List Byte) (n : Nat) (a : Word) (s : State)
    (hn : s.polls.length = n) (h : (stringPasses emit n a s).1 = false) : ∀ p ∈ s.polls, p = true := by
  induction n generalizing s with
  | zero => simp [List.eq_nil_of_length_eq_zero hn]
  | succ n ih =>
    rw [stringPasses_succ] at h
    cases h1 : (stringPass emit passLength a s).1
    · cases hp : s.polls with
      | nil => simp
      | cons p ps =>
        obtain ⟨hkey, hps⟩ := stringPass_whole_polls h1 hp
        have hrest := ih _ (by rw [hps]; simpa [hp] using hn) (by simpa [h1] using h)
        intro q hq
        rcases List.mem_cons.1 hq with rfl | hq
        · exact hkey
        · exact hrest q (hps ▸ hq)
    · simp [h1] at h

/-- The loop that finds no zero word has read every word before `KBSR` once more, as it was at the beginning. -/
theorem stringPasses_before {emit : Word → List Byte} {a : Word} {s : State} {j : Nat}
    (hj : j < (Param.kbsr - a).toNat) : ∀ {n : Nat}, (stringPasses emit n a s).1 = false →
    s.mem.readWord (a + BitVec.ofNat 16 j) ≠ 0 := by
  obtain ⟨hd, _, hu⟩ := kbsr_index a
  have hk : ∀ i, i ≤ j → a + BitVec.ofNat 16 i ≠ Param.kbsr := fun i hi e => by
    have := hu i (by omega) e
    omega
  intro n h
  cases n with
  | zero => exact stringPass_false_before h hj hk
  | succ n =>
    rw [stringPasses_succ] at h
    cases h1 : (stringPass emit passLength a s).1
    · exact stringPass_false_before h1 (by omega) hk
    · simp [h1] at h

/-- A whole pass without a zero word takes the first byte pending. If the loop that follows it finds no zero word
either, that byte is not 0: it was read back in `KBDR`, in the same pass or in what follows. -/
theorem stringPass_whole_input {emit : Word → List Byte} {a : Word} {s u : State} {n : Nat}
    (h : (stringPass emit passLength a s).1 = false) (hu : u.mem = (stringPass emit passLength a s).2.mem)
    (h' : (stringPasses emit n a u).1 = false) {b : Byte} {bs : List Byte} (hi : s.input = b :: bs) :
    b ≠ 0 ∧ (stringPass emit passLength a s).2.input = bs := by
  obtain ⟨t, _, ht, _, _, hk, _, hin, _, hmem, hafter⟩ := stringPass_whole h
  have htake : kbdTake (kbdAvail t).2 = (b, { (kbdAvail t).2 with input := bs }) := by
    unfold kbdTake; simp [ht, hi]
  have hread : (stringPass emit passLength a s).2.mem.readWord Param.kbdr = zext8 b := by
    rw [hmem, pollKeyboard_key hk, htake]
    exact Memory.readWord_writeWord_same _ _ _
  refine ⟨fun hb => ?_, by rw [hin, pollKeyboard_key hk, htake]⟩
  have e : a + BitVec.ofNat 16 (Param.kbdr - a).toNat = Param.kbdr := by
    rw [BitVec.ofNat_toNat, BitVec.setWidth_eq, BitVec.add_comm, BitVec.sub_add_cancel]
  have hne : (Param.kbdr - a).toNat ≠ (Param.kbsr - a).toNat := fun h0 => by
    rw [h0, (kbsr_index a).2.1] at e
    exact absurd e (by decide)
  have hz : (stringPass emit passLength a s).2.mem.readWord Param.kbdr = 0 := by rw [hread, hb]; rfl
  rcases Nat.lt_or_gt_of_ne hne with hlt | hgt
  · have := stringPasses_before hlt h'
    rw [e, hu] at this
    exact this hz
  · have := hafter _ hgt (Param.kbdr - a).isLt
    rw [e] at this
    exact this hz

/-- The loop that finds no zero word has taken no byte 0 from the bytes pending. -/
theorem stringPasses_input (emit : Word → List Byte) (n : Nat) (a : Word) (s : State)
    (h : (stringPasses emit n a s).1 = false) : ∀ b ∈ s.input.take n, b ≠ 0 := by
  induction n generalizing s with
  | zero => simp
  | succ n ih =>
    rw [stringPasses_succ] at h
    cases h1 : (stringPass emit passLength a s).1
    · simp only [h1, Bool.false_eq_true, if_false] at h
      cases hi : s.input with
      | nil => simp
      | cons b bs =>
        obtain ⟨hb, hbs⟩ := stringPass_whole_input h1 rfl h hi
        intro c hc
        rcases List.mem_cons.1 hc with rfl | hc
        · exact hb
        · exact ih _ h c (hbs ▸ hc)
    · simp [h1] at h

/-- Where the environment has a key ready for ever, as many polls are laid down as bytes are pending, or more. -/
theorem layPolls_length {s : State} (h : Config.kbdRun s.draws = none) :
    s.input.length ≤ (layPolls s).polls.length := by
  simp only [layPolls, h, List.length_append, List.length_replicate]
  omega

/-! ### The services -/

/-- How PUTS and PUTSP end: with a next state, flushed, that has all that reads, emissions and the laying down of
polls keep; or stuck, no word but the two of the keyboard being zero, every poll laid down having found a
key, no byte pending being 0, and the environment having a key ready for ever. -/
theorem stringService_cases (emit : Word → List Byte) (s : State) :
    (∃ u, stringService emit s = .next (conFlush u) ∧
      ∀ P : State → Prop, (∀ a s, P s → P (memRead a s).2) → (∀ bs s, P s → P (conOut bs s)) →
        (∀ s, P s → P (layPolls s)) → P (saveLink s) → P u) ∨
    (stringService emit s = .fault .stringNeverEnds ∧
      (∀ a : Word, a ≠ Param.kbsr → a ≠ Param.kbdr → s.mem.readWord a ≠ 0) ∧
      (∀ p ∈ s.polls, p = true) ∧ (∀ b ∈ s.input, b ≠ 0) ∧ ∃ d, Config.kbdRun d = none) := by
  unfold stringService
  cases h1 : stringPass emit passLength (readReg Param.trapArg s) (saveLink s) with
  | mk found t =>
    cases found
    · cases h2 : stringPasses emit (layPolls t).polls.length (readReg Param.trapArg s) (layPolls t) with
      | mk found u =>
        cases found
        · have e1 : (stringPass emit passLength (readReg Param.trapArg s) (saveLink s)).1 = false := by rw [h1]
          have e2 : (stringPasses emit (layPolls t).polls.length (readReg Param.trapArg s) (layPolls t)).1 =
              false := by rw [h2]
          have et : (stringPass emit passLength (readReg Param.trapArg s) (saveLink s)).2 = t := by rw [h1]
          have hall := stringPasses_polls emit _ _ _ rfl e2
          have hrun : Config.kbdRun t.draws = none := by
            cases hr : Config.kbdRun t.draws with
            | none => rfl
            | some k => exact absurd (hall false (by simp [layPolls, hr])) (by decide)
          refine .inr ⟨by simp only [h2], fun b h0 h2 => stringPass_whole_word (s := saveLink s) e1 h0 h2,
            ?_, ?_, t.draws, hrun⟩
          · cases hs : s.polls with
            | nil => simp
            | cons q qs =>
              obtain ⟨hq, hqs⟩ := stringPass_whole_polls (s := saveLink s) e1 hs
              rw [et] at hqs
              intro p hp
              rcases List.mem_cons.1 hp with rfl | hp
              · exact hq
              · exact hall p (List.mem_append_left _ (hqs ▸ hp))
          · cases hs : s.input with
            | nil => simp
            | cons b bs =>
              obtain ⟨hb, hbs⟩ := stringPass_whole_input (s := saveLink s) (u := layPolls t) e1
                (by rw [et]; rfl) e2 hs
              rw [et] at hbs
              intro c hc
              rcases List.mem_cons.1 hc with rfl | hc
              · exact hb
              · refine stringPasses_input emit _ _ _ e2 c ?_
                rw [layPolls_input, List.take_of_length_le (layPolls_length hrun)]
                exact hbs ▸ hc
        · refine .inl ⟨u, by simp only [h2], fun P hread hout hlay h => ?_⟩
          have ht := stringPass_keeps emit hread hout passLength (readReg Param.trapArg s) _ h
          rw [h1] at ht
          have hu := stringPasses_keeps emit hread hout (layPolls t).polls.length (readReg Param.trapArg s) _
            (hlay _ ht)
          rw [h2] at hu
          exact hu
    · refine .inl ⟨t, rfl, fun P hread hout _ h => ?_⟩
      have ht := stringPass_keeps emit hread hout passLength (readReg Param.trapArg s) _ h
      rw [h1] at ht
      exact ht

end Sys2Proof.Machine
end

