-- ==== Sys2Proof/Tests/Slice0.lean ====
section
/-! SUPPORT. The model's own tests. Expected values are the spec's: spec/95_test_vectors.md (the vector's name
is in each test's comment), or the bit strings of spec/30_encoding.md R51 written out by hand. -/

namespace Sys2Proof.Tests

open Sys2Proof.Machine

/-- Reset, with registers and memory words set, a word placed at `at_`, and `pc` there. -/
def start (at_ ir : Word) (regs : List (Reg × Word) := []) (mem : List (Word × Word) := []) : State :=
  let s := regs.foldl (fun s r => writeReg r.1 r.2 s) State.reset
  let s := mem.foldl (fun s m => memWrite m.1 m.2 s) s
  setPc at_ (memWrite at_ ir s)

/-- What `f` sees of the next state, if there is one. -/
def after {α : Type} (f : State → α) (o : Result) : Option α :=
  match o with
  | .next t => some (f t)
  | .fault _ => none
  | .refused _ => none

/-! ### Decoding: one word for each constructor, its bits written out from R51 and R52 -/

theorem test_decode_br : decode 0b0000_001_111111101 = .br 0b001 0b111111101 := by decide
theorem test_decode_add : decode 0b0001_000_001_0_11_010 = .add 0 1 2 := by decide
theorem test_decode_addImm : decode 0b0001_101_110_1_10111 = .addImm 5 6 0b10111 := by decide
theorem test_decode_ld : decode 0b0010_001_000000110 = .ld 1 6 := by decide
theorem test_decode_st : decode 0b0011_111_100000010 = .st 7 0b100000010 := by decide
theorem test_decode_jsr : decode 0b0100_1_10000000010 = .jsr 0b10000000010 := by decide
theorem test_decode_jsrr : decode 0b0100_0_11_010_111111 = .jsrr 2 := by decide
theorem test_decode_and : decode 0b0101_011_100_0_01_101 = .and 3 4 5 := by decide
theorem test_decode_andImm : decode 0b0101_011_100_1_00000 = .andImm 3 4 0 := by decide
theorem test_decode_ldr : decode 0b0110_001_010_111111 = .ldr 1 2 0b111111 := by decide
theorem test_decode_str : decode 0b0111_001_000_000011 = .str 1 0 3 := by decide
theorem test_decode_rti : decode 0b1000_101010111100 = .rti 0b101010111100 := by decide
theorem test_decode_not : decode 0b1001_001_110_000000 = .not 1 6 := by decide
theorem test_decode_ldi : decode 0b1010_000_000000101 = .ldi 0 5 := by decide
theorem test_decode_sti : decode 0b1011_110_000000011 = .sti 6 3 := by decide
theorem test_decode_jmp : decode 0b1100_111_010_111111 = .jmp 2 := by decide
theorem test_decode_res : decode 0b1101_000100100011 = .res 0b000100100011 := by decide
theorem test_decode_lea : decode 0b1110_100_000001001 = .lea 4 9 := by decide
theorem test_decode_getc : decode 0b1111_1111_00100000 = .trapGetc := by decide
theorem test_decode_out : decode 0b1111_0000_00100001 = .trapOut := by decide
theorem test_decode_puts : decode 0b1111_0000_00100010 = .trapPuts := by decide
theorem test_decode_in : decode 0b1111_0000_00100011 = .trapIn := by decide
theorem test_decode_putsp : decode 0b1111_0000_00100100 = .trapPutsp := by decide
theorem test_decode_halt : decode 0b1111_1010_00100101 = .trapHalt := by decide
theorem test_decode_other : decode 0b1111_0000_00100110 = .trapOther 0x26 := by decide

/-- R63: RET is JMP R7. -/
theorem test_decode_ret : decode 0xC1C0 = .jmp 7 := by decide

/-- R63, R90's example: the encoder gives the spec's words. -/
theorem test_encode_words :
    encode (.jmp 7) = 0xC1C0 ∧ encode (.br 0b001 0x1FD) = 0x03FD ∧ encode (.not 1 1) = 0x927F ∧
      encode .trapHalt = 0xF025 ∧ encode (.jsr 2) = 0x4802 := by decide

/-- An instruction is one word of two bytes; a single byte is refused by name. -/
theorem test_decode_bytes :
    decodeBytes [0x10, 0x25, 0xF0] = .ok (.addImm 0 0 5, [0xF0]) ∧
      decodeBytes [0x10] = .error .truncatedWord := ⟨rfl, rfl⟩

/-! ### WellFormed: each service vector is refused as TRAP.other, and its neighbours are not -/

theorem test_wellFormed_refuses_services :
    Param.serviceVectors.map (fun v => (Instr.trapOther v).wellFormed) =
      [false, false, false, false, false, false] := by decide

theorem test_wellFormed_neighbours :
    (Instr.trapOther 0x1F).wellFormed = true ∧ (Instr.trapOther 0x26).wellFormed = true := by decide

/-! ### ALU -/

/-- A2: signed overflow wraps. -/
theorem test_add_overflow :
    after (fun t => (readReg 0 t, t.cond, t.pc)) (step (start 0x3000 0x1042 [(1, 0x7FFF), (2, 1)])) =
      some (0x8000, .neg, 0x3001) := by decide

/-- A4: one register three times. -/
theorem test_add_same_register :
    after (fun t => (readReg 1 t, t.cond)) (step (start 0x3000 0x1241 [(1, 0x8000)])) =
      some (0, .zero) := by decide

/-- A9: the immediate form reads no SR2. -/
theorem test_addImm_no_sr2 :
    after (fun t => (readReg 0 t, t.cond)) (step (start 0x3000 0x1027 [(0, 1), (7, 0x1234)])) =
      some (8, .pos) := by decide

/-- A8: the most negative immediate. -/
theorem test_addImm_negative :
    after (fun t => (readReg 0 t, t.cond)) (step (start 0x3000 0x1030 [(0, 0x10)])) =
      some (0, .zero) := by decide

/-- A12. -/
theorem test_and :
    after (fun t => (readReg 0 t, t.cond)) (step (start 0x3000 0x5042 [(1, 0x8001), (2, 0xF000)])) =
      some (0x8000, .neg) := by decide

/-- A16: the mask is FFF0, not 0010. -/
theorem test_andImm_mask :
    after (fun t => (readReg 0 t, t.cond)) (step (start 0x3000 0x5030 [(0, 0x1234)])) =
      some (0x1230, .pos) := by decide

/-- A19. -/
theorem test_not :
    after (fun t => (readReg 1 t, t.cond)) (step (start 0x3000 0x927F [(1, 7)])) =
      some (0xFFF8, .neg) := by decide

/-- A20. -/
theorem test_not_max :
    after (fun t => (readReg 1 t, t.cond)) (step (start 0x3000 0x927F [(1, 0xFFFF)])) =
      some (0, .zero) := by decide

/-! ### Control -/

/-- B1. -/
theorem test_br_taken :
    after (fun t => (t.pc, t.cond)) (step { start 0x3004 0x03FD with cond := .pos }) =
      some (0x3002, .pos) := by decide

/-- B3. -/
theorem test_br_not_taken :
    after State.pc (step { start 0x3004 0x03FD with cond := .neg }) = some 0x3005 := by decide

/-- B18: JMP with all ignored bits 1. -/
theorem test_jmp : after State.pc (step (start 0x3000 0xCEBF [(2, 0x4000)])) = some 0x4000 := by decide

/-- B22: the largest backward offset. -/
theorem test_jsr :
    after (fun t => (readReg 7 t, t.pc)) (step (start 0x3000 0x4C00)) = some (0x3001, 0x2C01) := by decide

/-- B25: the link value wraps with `pc`. -/
theorem test_jsr_wrap :
    after (fun t => (readReg 7 t, t.pc)) (step (start 0xFFFF 0x4800 [(7, 0x1111)])) =
      some (0, 0) := by decide

/-- B26. -/
theorem test_jsrr :
    after (fun t => (readReg 7 t, t.pc)) (step (start 0x3000 0x4080 [(2, 0x5000)])) =
      some (0x3001, 0x5000) := by decide

/-- B27: `JSRR R7` does not jump. -/
theorem test_jsrr_link :
    after (fun t => (readReg 7 t, t.pc)) (step (start 0x3000 0x41C0 [(7, 0x5000)])) =
      some (0x3001, 0x3001) := by decide

/-! ### Loads and stores -/

/-- M5: the largest backward offset. -/
theorem test_ld :
    after (fun t => (readReg 0 t, t.cond)) (step (start 0x00FF 0x2100 [] [(0, 0xAA)])) =
      some (0xAA, .pos) := by decide

/-- M20: LD polls the keyboard. -/
theorem test_ld_kbsr :
    after (fun t => (readReg 0 t, t.cond, t.mem.readWord 0xFE00, t.mem.readWord 0xFE02, t.input))
      (step { start 0xFDFF 0x2000 with polls := [true], input := [0x61] }) =
      some (0x8000, .neg, 0x8000, 0x0061, []) := by decide

/-- M7. -/
theorem test_ldi :
    after (fun t => (readReg 0 t, t.cond))
      (step (start 0x3000 0xA005 [] [(0x3006, 0x4000), (0x4000, 0xBEEF)])) =
      some (0xBEEF, .neg) := by decide

/-- M11: the pointer word is the status register. -/
theorem test_ldi_kbsr_pointer :
    after (fun t => (readReg 0 t, t.mem.readWord 0xFE00, t.mem.readWord 0xFE02))
      (step { start 0xFDFF 0xA000 [] [(0x8000, 0x1234)] with polls := [true], input := [0x61] }) =
      some (0x1234, 0x8000, 0x0061) := by decide

/-- M15: the address wraps. -/
theorem test_ldr :
    after (fun t => (readReg 1 t, t.cond)) (step (start 0x3000 0x62BF [(2, 0)] [(0xFFFF, 0x8001)])) =
      some (0x8001, .neg) := by decide

/-- M16: base = destination. -/
theorem test_ldr_base_is_destination :
    after (fun t => (readReg 2 t, t.cond)) (step (start 0x3000 0x6480 [(2, 0x4000)])) =
      some (0, .zero) := by decide

/-- M23: LEA sets `cond`. -/
theorem test_lea :
    after (fun t => (readReg 0 t, t.cond, t.pc)) (step { start 0xFFFF 0xE000 [(0, 5)] with cond := .pos }) =
      some (0, .zero, 0) := by decide

/-- M31: the instruction overwrites itself. -/
theorem test_st :
    after (fun t => (t.mem.readWord 0x3000, t.cond)) (step (start 0x3000 0x31FF [(0, 0xF025)])) =
      some (0xF025, .zero) := by decide

/-- M34. -/
theorem test_sti :
    after (fun t => (t.mem.readWord 0x4000, t.mem.readWord 0x3008))
      (step (start 0x3004 0xB003 [(0, 0x61)] [(0x3008, 0x4000)])) =
      some (0x61, 0x4000) := by decide

/-- M37: STI's pointer read polls. -/
theorem test_sti_kbsr_pointer :
    after (fun t => (t.mem.readWord 0x8000, t.mem.readWord 0xFE00, t.mem.readWord 0xFE02))
      (step { start 0xFDFF 0xB000 [(0, 0x5555)] with polls := [true], input := [0x7A] }) =
      some (0x5555, 0x8000, 0x007A) := by decide

/-- M42: the address wraps. -/
theorem test_str :
    after (fun t => t.mem.readWord 0) (step (start 0x3000 0x7E5F [(7, 0xAAAA), (1, 0xFFE1)])) =
      some 0xAAAA := by decide

/-! ### TRAP -/

/-- T3: zero extension. -/
theorem test_getc :
    after (fun t => (readReg 0 t, readReg 7 t, t.cond, t.output, t.input))
      (step { start 0x3000 0xF020 with input := [0xFF] }) =
      some (0x00FF, 0x3001, .pos, [], []) := by decide

/-- T4: without a byte the step holds and nothing has happened. -/
theorem test_getc_holds (h : Config.kbdArrives 0 = false) :
    step (start 0x3000 0xF020) = .next { start 0x3000 0xF020 with draws := 1, held := some .getc } := by
  have hd : decode (fetch (start 0x3000 0xF020)).1 = .trapGetc := by decide
  have hr : (kbdRead (fetch (start 0x3000 0xF020)).2).1 = none := by
    show (if Config.kbdArrives 0 = true then some (Config.kbdByte 0) else none) = none
    simp [h]
  have hh : hold .getc (kbdRead (fetch (start 0x3000 0xF020)).2).2 =
      { start 0x3000 0xF020 with draws := 1, held := some .getc } := by decide
  show exec (decode (fetch (start 0x3000 0xF020)).1) (fetch (start 0x3000 0xF020)).2 = _
  rw [hd]
  simp only [exec, execTrapGetc, hr, hh]

/-- T7: the high byte is ignored. -/
theorem test_out :
    after (fun t => (t.output, t.flushed, readReg 7 t)) (step (start 0x3000 0xF021 [(0, 0x1241)])) =
      some ([0x41], 1, 0x3001) := by decide

/-- T12: the address wraps; the terminator is not emitted. -/
theorem test_puts :
    after (fun t => (t.output, readReg 0 t, readReg 7 t, t.held))
      (step (start 0x3000 0xF022 [(0, 0xFFFF)] [(0xFFFF, 0x41), (0, 0x42)])) =
      some ([0x41, 0x42], 0xFFFF, 0x3001, none) := by decide

/-- T14: a string over the status address, with a key. -/
theorem test_puts_kbsr :
    after (fun t => (t.output, t.mem.readWord 0xFE00, t.mem.readWord 0xFE02, t.input))
      (step { start 0x3000 0xF022 [(0, 0xFDFF)] [(0xFDFF, 0x41), (0xFE01, 0x43)] with
        polls := [true], input := [0x71] }) =
      some ([0x41, 0x00, 0x43, 0x71], 0x8000, 0x0071, []) := by decide

/-- T15, on a step held after its prompt: the prompt is not emitted again. -/
theorem test_in_resumed :
    after (fun t => (t.output, readReg 0 t, readReg 7 t, t.cond, t.held))
      (step { start 0x3000 0xF023 with input := [0x79], held := some .input }) =
      some ([0x79], 0x0079, 0x3001, .pos, none) := by decide

/-- T15. -/
theorem test_in :
    after State.output (step { start 0x3000 0xF023 with input := [0x79] }) =
      some (Config.inPrompt ++ [0x79]) := rfl

/-- T19: the low byte always, then the non-zero high byte. -/
theorem test_putsp :
    after State.output (step (start 0x3000 0xF024 [(0, 0x4000)] [(0x4000, 0x4100)])) =
      some [0x00, 0x41] := by decide

/-- T18. -/
theorem test_putsp_odd :
    after State.output
      (step (start 0x3000 0xF024 [(0, 0x4000)] [(0x4000, 0x4948), (0x4001, 0x0021)])) =
      some [0x48, 0x49, 0x21] := by decide

/-- T22: HALT with its ignored bits 1. -/
theorem test_halt :
    after (fun t => (t.running, readReg 7 t, t.pc, t.fault)) (step (start 0x3000 0xFF25)) =
      some (false, 0x3001, 0x3001, false) := by decide

/-- T21: the notice. -/
theorem test_halt_notice :
    after State.output (step (start 0x3000 0xF025)) = some Config.haltNotice := rfl

/-- T23. -/
theorem test_other :
    after (fun t => (readReg 7 t, t.cond, t.output, t.fault))
      (step { start 0x3000 0xF0FF [(7, 0x1234)] with cond := .neg }) =
      some (0x3001, .neg, [], false) := by decide

/-! ### The fault, the fetch and the stopped states -/

/-- X2. -/
theorem test_rti :
    after (fun t => (t.fault, t.faultIr, t.pc, t.running, readReg 1 t))
      (step (start 0x3000 0x8ABC [(1, 0x1111)])) =
      some (true, 0x8ABC, 0x3001, true, 0x1111) := by decide

/-- X4: `pc` wraps. -/
theorem test_res :
    after (fun t => (t.fault, t.faultIr, t.pc)) (step (start 0xFFFF 0xDFFF)) =
      some (true, 0xDFFF, 0x0000) := by decide

/-- X5: the fetch from the status address is intercepted. -/
theorem test_fetch_kbsr :
    after (fun t => (t.fault, t.faultIr, t.pc, t.mem.readWord 0xFE02))
      (step { start 0xFE00 0x1025 with polls := [true], input := [0x6B] }) =
      some (true, 0x8000, 0xFE01, 0x006B) := by decide

/-- X6. -/
theorem test_fetch_kbsr_no_key :
    after (fun t => (t.fault, t.pc, t.mem.readWord 0xFE00))
      (step { start 0xFE00 0x1025 with polls := [false] }) =
      some (false, 0xFE01, 0x0000) := by decide

/-- K2: the ready write is an assignment. -/
theorem test_kbsr_assignment :
    (memRead 0xFE00 { start 0x3000 0 [] [(0xFE00, 0x7FFF)] with polls := [true], input := [0x61] }).1 =
      0x8000 := by decide

/-! ### The loader -/

/-- L2: truncation at 0xFFFF, no wrap. -/
theorem test_load_truncates :
    after (fun t => (t.mem.readWord 0xFFFE, t.mem.readWord 0xFFFF, t.mem.readWord 0))
      (launch [some [0xFF, 0xFE, 0x11, 0x11, 0x22, 0x22, 0x33, 0x33, 0x44, 0x44]]) =
      some (0x1111, 0x2222, 0) := by decide

/-- L5: the later image wins. -/
theorem test_load_later_wins :
    after (fun t => (t.mem.readWord 0x3000, t.mem.readWord 0x3001, t.mem.readWord 0x3002, t.pc))
      (launch [some [0x30, 0x00, 0x00, 0x01, 0x00, 0x02, 0x00, 0x03], some [0x30, 0x01, 0x00, 0x09]]) =
      some (1, 9, 3, 0x3000) := by decide

/-- L7: an image without an origin is refused. -/
theorem test_load_refuses : launch [some [0x30]] = .refused .imageTooShort := rfl

/-- R63: the host's two hooks, on HALT's word. -/
theorem test_host_hooks :
    decodeTableWord 16 0xF025 = some .trapHalt ∧
      after State.running (step (State.reset.withFetchWord 16 0xF025)) = some false := by decide

/-! ### Witnesses: concrete states and operands that meet the hypotheses of the statements

One theorem for each statement that has hypotheses, named after it; where a statement has several clauses
over one input, one line for each. -/

/-- A state that has run into each of the two stopped states. -/
theorem witness_StoppedMachineTakesNoStep :
    Halted { State.reset with running := false } ∧ Faulted { State.reset with fault := true } :=
  ⟨⟨rfl, rfl⟩, rfl⟩

/-- Both clauses: an ordinary `pc`, and the status address. -/
theorem witness_StepRunsDecodedInstruction :
    Running (start 0x3000 0x1025) ∧ (start 0x3000 0x1025).held = none ∧
      (start 0x3000 0x1025).pc ≠ Param.kbsr ∧
      Running (start 0xFE00 0x1025) ∧ (start 0xFE00 0x1025).held = none :=
  ⟨⟨rfl, rfl⟩, rfl, by decide, ⟨rfl, rfl⟩, rfl⟩

theorem witness_HeldStepGoesOn :
    [Held.getc, .input].all (fun h =>
      let s := { State.reset with held := some h }
      s.running && !s.fault && s.held == some h) = true := by decide

theorem witness_SignExtensionIsExact : [5, 6, 9, 11].all (fun n => n ∈ [5, 6, 9, 11]) = true := by decide

/-- The first and the last of the no-op words, and the word after them, which is none. -/
theorem witness_NeverTakenBranchIsNoOp :
    (0x0000 : Word).toNat < 0x200 ∧ (0x01FF : Word).toNat < 0x200 ∧ ¬(0x0200 : Word).toNat < 0x200 := by
  decide

/-- The neighbours of the status address, the data address, and the ends of memory. -/
theorem witness_ReadElsewhereIsPlain :
    [0x0000, 0xFDFF, 0xFE01, 0xFE02, 0xFFFF].all (fun a : Word => a ≠ 0xFE00) = true := by decide

/-- Both clauses on a poll that has been laid down. -/
theorem witness_StatusReadPolls :
    { State.reset with polls := [true], input := [0xFF] }.polls = true :: [] ∧
      { State.reset with polls := [true], input := [0xFF] }.input = 0xFF :: [] ∧
      { State.reset with polls := [false, true] }.polls = false :: [true] := by decide

/-- Both clauses on the second poll. -/
theorem witness_StatusReadIsDestructive :
    { State.reset with polls := [true, true], input := [0x61, 0x62] }.polls = true :: true :: [] ∧
      { State.reset with polls := [true, true], input := [0x61, 0x62] }.input = 0x61 :: 0x62 :: [] ∧
      { State.reset with polls := [true, false], input := [0x61] }.polls = true :: false :: [] ∧
      { State.reset with polls := [true, false], input := [0x61] }.input = 0x61 :: [] := by decide

/-- One for each clause: ST with offset 0, STI through a pointer to the next word, STR at the next word. -/
theorem witness_StoreReachesNextFetch :
    (start 0x3001 0x0000 [(0, 0xF025)]).pc ≠ 0xFE00 ∧
      (0x3001 : Word) + sext (0 : BitVec 9) = 0x3001 ∧
      exec (.st 0 0) (start 0x3001 0x0000 [(0, 0xF025)]) =
        .next (memWrite 0x3001 0xF025 (start 0x3001 0x0000 [(0, 0xF025)])) ∧
      (memRead (0x3001 + sext (2 : BitVec 9)) (start 0x3001 0x0000 [(0, 0xF025)] [(0x3003, 0x3001)])).1 =
        0x3001 ∧
      exec (.sti 0 2) (start 0x3001 0x0000 [(0, 0xF025)] [(0x3003, 0x3001)]) =
        .next (memWrite 0x3001 0xF025 (start 0x3001 0x0000 [(0, 0xF025)] [(0x3003, 0x3001)])) ∧
      readReg 1 (start 0x3001 0x0000 [(0, 0xF025), (1, 0x3000)]) + sext (1 : BitVec 6) = 0x3001 ∧
      exec (.str 0 1 1) (start 0x3001 0x0000 [(0, 0xF025), (1, 0x3000)]) =
        .next (memWrite 0x3001 0xF025 (start 0x3001 0x0000 [(0, 0xF025), (1, 0x3000)])) :=
  ⟨by decide, by decide, rfl, by decide, rfl, by decide, rfl⟩

theorem witness_GetcReturnsKey : { State.reset with input := [0x00, 0xFF] }.input = 0x00 :: [0xFF] := rfl

theorem witness_InPromptsAndEchoes : { State.reset with input := [0xFF] }.input = 0xFF :: [] := rfl

theorem witness_KeyServiceAwaitsInput : State.reset.input = [] := rfl

/-- T9 with a string of two words, and the empty string (n = 0). -/
theorem witness_PutsEmitsString :
    let s := start 0x3000 0xF022 [(0, 0xFFFF)] [(0xFFFF, 0x48), (0x0000, 0x49)]
    ((2 < 0x10000 ∧ (∀ j, j < 2 → s.mem.readWord (readReg 0 s + BitVec.ofNat 16 j) ≠ 0) ∧
      s.mem.readWord (readReg 0 s + BitVec.ofNat 16 2) = 0 ∧
      (∀ j, j ≤ 2 → readReg 0 s + BitVec.ofNat 16 j ≠ 0xFE00)) ∧
    (State.reset.mem.readWord (readReg 0 State.reset + BitVec.ofNat 16 0) = 0 ∧
      (∀ j, j ≤ 0 → readReg 0 State.reset + BitVec.ofNat 16 j ≠ 0xFE00))) := by decide

/-- T18's string: a full word, a word with a zero high byte, the end. -/
theorem witness_PutspEmitsPackedString :
    let s := start 0x3000 0xF024 [(0, 0x4000)] [(0x4000, 0x4948), (0x4001, 0x0021)]
    (2 < 0x10000 ∧ (∀ j, j < 2 → s.mem.readWord (readReg 0 s + BitVec.ofNat 16 j) ≠ 0) ∧
      s.mem.readWord (readReg 0 s + BitVec.ofNat 16 2) = 0 ∧
      (∀ j, j ≤ 2 → readReg 0 s + BitVec.ofNat 16 j ≠ 0xFE00)) := by decide

theorem witness_StringServiceFrame :
    Instr.trapPuts ∈ [Instr.trapPuts, .trapPutsp] ∧ Instr.trapPutsp ∈ [Instr.trapPuts, .trapPutsp] := by
  decide

/-- A run of cells that all hold 1. -/
def ones (a n : Nat) : Memory := (List.range' a n).map (fun k => (k, 1))

theorem ones_readByte {a n k : Nat} (h : a ≤ k) (h' : k < a + n) : (ones a n).readByte k = 1 := by
  induction n generalizing a with
  | zero => omega
  | succ n ih =>
    by_cases e : a = k
    · simp [ones, List.range', Memory.readByte, e]
    · have := ih (a := a + 1) (by omega) (by omega)
      simpa [ones, List.range', Memory.readByte, e] using this

/-- Every word of memory is 0x0101. -/
theorem ones_readWord (a : Word) : (ones 0 0x20000).readWord a ≠ 0 := by
  have ha : a.toNat < 65536 := a.isLt
  have h0 : (ones 0 0x20000).readByte (cellOf a) = 1 := ones_readByte (by omega) (by unfold cellOf; omega)
  have h1 : (ones 0 0x20000).readByte (cellOf a + 1) = 1 :=
    ones_readByte (by omega) (by unfold cellOf; omega)
  rw [Memory.readWord, h0, h1]
  decide

/-- No zero word, and a key that is not 0 at the one poll laid down, the only byte pending (both bounds equal). -/
theorem witness_StringWithoutZeroWordNeverEnds :
    let s := { State.reset with mem := ones 0 0x20000, polls := [true], input := [0x61] }
    Instr.trapPutsp ∈ [Instr.trapPuts, .trapPutsp] ∧ (∀ a : Word, a ≠ 0xFE00 → s.mem.readWord a ≠ 0) ∧
      s.polls ≠ [] ∧ (∀ p ∈ s.polls, p = true) ∧ (∀ b ∈ s.input, b ≠ 0) ∧
      s.polls.length ≤ s.input.length :=
  ⟨by decide, fun a _ => ones_readWord a, by decide, by decide, by decide, by decide⟩

/-- The same memory, and keys for two passes. -/
theorem witness_StringLoopEmitsWithoutBound :
    let s := { State.reset with mem := ones 0 0x20000, polls := [true, true], input := [0x61, 0xFF] }
    (putsBytes ∈ [putsBytes, putspBytes] ∧ putspBytes ∈ [putsBytes, putspBytes]) ∧
      (∀ a : Word, a ≠ 0xFE00 → s.mem.readWord a ≠ 0) ∧ (∀ p ∈ s.polls, p = true) ∧
      (∀ b ∈ s.input, b ≠ 0) ∧ 2 ≤ s.polls.length ∧ 2 ≤ s.input.length :=
  ⟨⟨by simp, by simp⟩, fun a _ => ones_readWord a, by decide, by decide, by decide, by decide⟩

/-- The vectors on both sides of the six services, and the ends of the range. -/
theorem witness_OtherVectorWritesLinkOnly :
    [0x00, 0x1F, 0x26, 0xFF].all (fun v : BitVec 8 => v.toNat < 0x20 || 0x25 < v.toNat) = true ∧
      [0x20, 0x25].all (fun v : BitVec 8 => v.toNat < 0x20 || 0x25 < v.toNat) = false := by decide

/-- Both clauses. -/
theorem witness_FetchFromStatusAddress :
    Running { start 0xFE00 0x1025 with polls := [false] } ∧ (start 0xFE00 0x1025).held = none ∧
      (start 0xFE00 0x1025).pc = 0xFE00 ∧ { start 0xFE00 0x1025 with polls := [false] }.polls = false :: [] ∧
      Running { start 0xFE00 0x1025 with polls := [true], input := [0x6B] } ∧
      { start 0xFE00 0x1025 with polls := [true], input := [0x6B] }.input = 0x6B :: [] :=
  ⟨⟨rfl, rfl⟩, rfl, rfl, rfl, ⟨rfl, rfl⟩, rfl⟩

/-- An instruction that is no source of flags, and one that is. -/
theorem witness_FlagsFollowListedInstructions :
    exec (.jsr 2) State.reset = .next { writeReg 7 0x3000 State.reset with pc := 0x3002 } ∧
      flagSource (.jsr 2) = none ∧
      exec (.addImm 0 0 5) State.reset = .next { writeReg 0 5 State.reset with cond := .pos } ∧
      flagSource (.addImm 0 0 5) = some 0 := ⟨rfl, rfl, rfl, rfl⟩

/-- A step that is not HALT, and one that is. -/
theorem witness_OnlyHaltClearsRunning :
    step State.reset = .next { State.reset with pc := 0x3001 } ∧ State.reset.running = true ∧
      (after State.running (step (start 0x3000 0xF025)) = some false) ∧
      executed (start 0x3000 0xF025) = .trapHalt := ⟨rfl, rfl, by decide, by decide⟩

/-- A step that faults, and one that does not. -/
theorem witness_OnlyReservedOpcodesFault :
    step State.reset = .next { State.reset with pc := 0x3001 } ∧ Running State.reset ∧
      after State.fault (step (start 0x3000 0x8000)) = some true ∧ Running (start 0x3000 0x8000) ∧
      (executed (start 0x3000 0x8000)).opcode = .rti ∧ (executed (start 0x3000 0xD000)).opcode = .res :=
  ⟨rfl, ⟨rfl, rfl⟩, by decide, ⟨rfl, rfl⟩, by decide, by decide⟩

theorem witness_OnlyTransfersMovePc :
    exec (.addImm 0 0 5) State.reset = .next { writeReg 0 5 State.reset with cond := .pos } ∧
      (Instr.addImm 0 0 5).opcode ∉ [Opcode.br, .jmp, .jsr] := ⟨rfl, by decide⟩

/-- Both clauses: a service that emits, and an instruction that is none of the five. -/
theorem witness_OnlyServicesEmitOutput :
    (exec .trapOut State.reset =
        .next { writeReg 7 0x3000 State.reset with output := [0], flushed := 1 }) ∧
      exec (.st 0 0) State.reset = .next State.reset ∧
      Instr.st 0 0 ∉ [Instr.trapOut, .trapPuts, .trapIn, .trapPutsp, .trapHalt] := ⟨rfl, rfl, by decide⟩

theorem witness_OnlyStoresWriteMemory :
    step State.reset = .next { State.reset with pc := 0x3001 } ∧
      (executed State.reset).opcode ∉ [Opcode.st, .sti, .str] ∧ 0x1FFFF / 2 ≠ 0xFE00 ∧
      0x1FFFF / 2 ≠ 0xFE02 := ⟨rfl, by decide⟩

theorem witness_InputConsumedInOrder :
    after State.input (step { start 0x3000 0xF020 with input := [0x61, 0x62] }) = some [0x62] := by decide

theorem witness_StatusIsReadByNoInstruction :
    exec (.addImm 0 0 5) State.reset = .next { writeReg 0 5 State.reset with cond := .pos } := rfl

theorem witness_OnlyBranchReadsFlags :
    (Instr.jsr 2).opcode ≠ .br ∧ flagSource (.jsr 2) = none ∧
      exec (.jsr 2) State.reset = .next { writeReg 7 0x3000 State.reset with pc := 0x3002 } :=
  ⟨by decide, rfl, rfl⟩

/-- Reset meets the invariant, and the first step from it answers a next state. -/
theorem witness_StepKeepsInvariant :
    Inv State.reset ∧ step State.reset = .next { State.reset with pc := 0x3001 } :=
  ⟨⟨by decide, fun h => absurd h (by decide), fun h => absurd h (by decide), fun h => absurd rfl h⟩, rfl⟩

/-- A Faulted state that meets the invariant, by a step from a state that meets it. -/
theorem witness_StepKeepsInvariant_faulted :
    after (fun t => (t.fault, t.running, (decode t.faultIr).opcode, t.held)) (step (start 0x3000 0xD123)) =
      some (true, true, .res, none) := by decide

/-- An instruction with operands, and the vectors next to the services. -/
theorem witness_DecodeOfEncode :
    (Instr.addImm 7 7 0x10).wellFormed = true ∧ (Instr.trapOther 0x1F).wellFormed = true ∧
      (Instr.trapOther 0x26).wellFormed = true := by decide

/-- The four words of R80's corner case. -/
theorem witness_DecodeDropsOnlyIgnoredBits :
    [0x1042, 0x104A, 0x1052, 0x105A].all (fun w' : Word =>
      w' ||| ignoredBits (decode 0x1042) = 0x1042 ||| ignoredBits (decode 0x1042)) = true := by decide

theorem witness_DecodeFollowsOpcodeTable :
    (0xFF25 : Word) &&& (tableRow .trapHalt).1 = (tableRow .trapHalt).2 ∧
      ∀ v, Instr.trapHalt ≠ .trapOther v := ⟨by decide, fun _ h => nomatch h⟩

theorem witness_LaunchMeetsInvariant :
    (launch [some [0x30, 0x00, 0x10, 0x25]] =
        .next { State.reset with mem := Memory.writeWord [] 0x3000 0x1025 }) ∧
      launch [] = .next State.reset := ⟨rfl, rfl⟩

theorem witness_BadImageStopsLaunch :
    (loadImages [some [0x30, 0x00, 0x10, 0x25]] State.reset =
        .next { State.reset with mem := Memory.writeWord [] 0x3000 0x1025 }) ∧
      ([] : List Byte).length < 2 ∧ ([0x30] : List Byte).length < 2 := ⟨rfl, by decide, by decide⟩

end Sys2Proof.Tests
end

section
/-! PROOFS. The condition flags (spec/10_state.md R16): what `setcc` leaves alone, and the flag it sets. -/

namespace Sys2Proof.Machine

/-- The frame of `setcc`, general registers: `cond` is not one of them. -/
theorem setcc_sameRegs (i : Reg) (s : State) : SameRegs s (setcc i s) := readReg_setcc i s

/-- The frame of `setcc`, memory, control, keyboard and console. -/
theorem setcc_sameRest (i : Reg) (s : State) : SameRest s (setcc i s) := by
  have hmem : SameMemory s (setcc i s) := fun k => congrArg (·.readByte k) (setcc_mem i s)
  have hcontrol : SameControl s (setcc i s) :=
    ⟨setcc_running i s, setcc_fault i s, setcc_faultIr i s, setcc_held i s⟩
  have hkeyboard : SameKeyboard s (setcc i s) := ⟨setcc_input i s, setcc_polls i s, setcc_draws i s⟩
  have hconsole : SameConsole s (setcc i s) := ⟨setcc_output i s, setcc_flushed i s⟩
  exact ⟨hmem, hcontrol, hkeyboard, hconsole⟩

/-- Settles O12: the new `cond` is `condOf` of the register, which is its flag in R16's words by
`condOf_flagOf`; the rest is the frame of `setcc`. -/
theorem setccFollowsRegister : Obligations.SetccFollowsRegister := by
  intro i s
  have hflag : FlagOf (readReg i s) (setcc i s).cond := by
    rw [setcc_cond]
    exact condOf_flagOf (readReg i s)
  exact ⟨hflag, setcc_sameRegs i s, setcc_pc i s, setcc_sameRest i s⟩

end Sys2Proof.Machine
end

section
/-! PROOFS. Sign extension (spec/30_encoding.md R57): its signed and its unsigned reading. -/

namespace Sys2Proof.Machine

theorem sext_toInt {n : Nat} (hn : n ≤ 16) (v : BitVec n) : (sext v).toInt = v.toInt :=
  BitVec.toInt_signExtend_of_le hn

/-- R57's pseudocode. Its reduction mod 0x10000 is not needed: the sum stays below, as `v < 2 ^ n`. -/
theorem sext_toNat {n : Nat} (hn : n ≤ 16) (v : BitVec n) :
    (sext v).toNat = if v.getLsbD (n - 1) then v.toNat + 0x10000 - 2 ^ n else v.toNat := by
  have hle : 2 ^ n ≤ 2 ^ 16 := Nat.pow_le_pow_right (by decide) hn
  rw [sext, BitVec.toNat_signExtend, BitVec.toNat_setWidth_of_le hn, BitVec.msb_eq_getLsbD_last]
  split
  · omega
  · rfl

/-- Settles O11: no field is wider than a word, so `sext_toInt` and `sext_toNat` apply at each width. -/
theorem signExtensionIsExact : Obligations.SignExtensionIsExact := by
  intro n hwidth v
  have hn : n ≤ 16 := (by decide : ∀ k ∈ [5, 6, 9, 11], k ≤ 16) n hwidth
  exact ⟨sext_toInt hn v, sext_toNat hn v⟩

end Sys2Proof.Machine
end

section
/-! PROOFS. ADD, AND and NOT (spec/41_alu.md R80 to R85): the words of formats RRR, RRI and RR
(spec/30_encoding.md R51), the instruction each decodes to, and what a destination write changes. -/

namespace Sys2Proof.Machine

open Sys2Proof.Laws.OpcodeField (top_of_MBO)

/-! ### Fields

RRR and RRI are read as RR is, with `ir[5:0]` as one field `low`: the opcode, DR and SR1 are then found once
for all three, and what tells the formats apart is a fact about six bits. -/

theorem regroup_RRR (c : BitVec 4) (a b : BitVec 3) (d : BitVec 1) (e : BitVec 2) (f : BitVec 3) :
    (c ++ a ++ b ++ d ++ e ++ f : Word) = c ++ a ++ b ++ (d ++ e ++ f) := by
  simp only [BitVec.append_assoc, BitVec.cast_eq]

theorem regroup_RRI (c : BitVec 4) (a b : BitVec 3) (d : BitVec 1) (e : BitVec 5) :
    (c ++ a ++ b ++ d ++ e : Word) = c ++ a ++ b ++ (d ++ e) := by
  simp only [BitVec.append_assoc, BitVec.cast_eq]

/-- A register is read back from the three bits of its index. -/
theorem regField_of_extract {ir : Word} {lo : Nat} {r : Reg} (h : ir.extractLsb' lo 3 = regBits r) :
    regField ir lo = r := congrArg BitVec.toFin h

section
variable (c : BitVec 4) (dr sr1 : Reg) (low : BitVec 6)

theorem regField_dr : regField (c ++ regBits dr ++ regBits sr1 ++ low) 9 = dr := by
  apply regField_of_extract
  rw [BitVec.extractLsb'_append_eq_of_le (by decide), BitVec.extractLsb'_append_eq_of_le (by decide),
    BitVec.extractLsb'_append_eq_of_add_le (by decide)]
  exact BitVec.extractLsb'_eq_self

theorem regField_sr1 : regField (c ++ regBits dr ++ regBits sr1 ++ low) 6 = sr1 := by
  apply regField_of_extract
  rw [BitVec.extractLsb'_append_eq_of_le (by decide), BitVec.extractLsb'_append_eq_of_add_le (by decide)]
  exact BitVec.extractLsb'_eq_self

/-- `ir[5]`, which chooses between the two forms of ADD and AND (R53). -/
theorem immFlag_eq_low :
    BitVec.getLsbD (w := 16) (c ++ regBits dr ++ regBits sr1 ++ low) 5 = low.getLsbD 5 := by
  rw [BitVec.getLsbD_append, if_pos (by decide)]

theorem regField_sr2 :
    regField (c ++ regBits dr ++ regBits sr1 ++ low) 0 = (low.extractLsb' 0 3).toFin := by
  rw [regField, BitVec.extractLsb'_append_eq_of_add_le (by decide)]

theorem imm5_eq_low :
    BitVec.extractLsb' (n := 16) 0 5 (c ++ regBits dr ++ regBits sr1 ++ low) = low.extractLsb' 0 5 :=
  BitVec.extractLsb'_append_eq_of_add_le (by decide)

end

/-! ### Decoding -/

theorem ofCode_code (o : Opcode) : Opcode.ofCode o.code = o := by
  cases o <;> rfl

theorem decode_add_low (dr sr1 : Reg) (low : BitVec 6) :
    decode (Opcode.add.code ++ regBits dr ++ regBits sr1 ++ low) =
      if low.getLsbD 5 then .addImm dr sr1 (low.extractLsb' 0 5)
      else .add dr sr1 (low.extractLsb' 0 3).toFin := by
  rw [decode, top_of_MBO, ofCode_code]
  simp only [regField_dr, regField_sr1, regField_sr2, immFlag_eq_low, imm5_eq_low]

theorem decode_and_low (dr sr1 : Reg) (low : BitVec 6) :
    decode (Opcode.and.code ++ regBits dr ++ regBits sr1 ++ low) =
      if low.getLsbD 5 then .andImm dr sr1 (low.extractLsb' 0 5)
      else .and dr sr1 (low.extractLsb' 0 3).toFin := by
  rw [decode, top_of_MBO, ofCode_code]
  simp only [regField_dr, regField_sr1, regField_sr2, immFlag_eq_low, imm5_eq_low]

theorem decode_not_low (dr sr1 : Reg) (low : BitVec 6) :
    decode (Opcode.not.code ++ regBits dr ++ regBits sr1 ++ low) = .not dr sr1 := by
  rw [decode, top_of_MBO, ofCode_code]
  simp only [regField_dr, regField_sr1]

/-! The low six bits of the two forms: the flag, then SR2 or imm5. -/

theorem registerForm_flag (ign : BitVec 2) (sr2 : Reg) :
    (0b0#1 ++ ign ++ regBits sr2).getLsbD 5 = false := by
  rw [BitVec.getLsbD_append, if_neg (by decide), BitVec.getLsbD_append, if_neg (by decide)]
  rfl

theorem registerForm_sr2 (flag : BitVec 1) (ign : BitVec 2) (sr2 : Reg) :
    ((flag ++ ign ++ regBits sr2).extractLsb' 0 3).toFin = sr2 := by
  rw [BitVec.extractLsb'_append_eq_of_add_le (by decide), BitVec.extractLsb'_eq_self]
  rfl

theorem immediateForm_flag (imm : BitVec 5) : (0b1#1 ++ imm).getLsbD 5 = true := by
  rw [BitVec.getLsbD_append, if_neg (by decide)]
  rfl

theorem immediateForm_imm5 (flag : BitVec 1) (imm : BitVec 5) :
    (flag ++ imm).extractLsb' 0 5 = imm := by
  rw [BitVec.extractLsb'_append_eq_of_add_le (by decide), BitVec.extractLsb'_eq_self]

theorem decode_add_register (dr sr1 sr2 : Reg) (ign : BitVec 2) :
    decode (Opcode.add.code ++ regBits dr ++ regBits sr1 ++ 0b0#1 ++ ign ++ regBits sr2) =
      .add dr sr1 sr2 := by
  rw [regroup_RRR, decode_add_low, registerForm_flag, registerForm_sr2]
  rfl

theorem decode_add_immediate (dr sr1 : Reg) (imm : BitVec 5) :
    decode (Opcode.add.code ++ regBits dr ++ regBits sr1 ++ 0b1#1 ++ imm) = .addImm dr sr1 imm := by
  rw [regroup_RRI, decode_add_low, immediateForm_flag, immediateForm_imm5]
  rfl

theorem decode_and_register (dr sr1 sr2 : Reg) (ign : BitVec 2) :
    decode (Opcode.and.code ++ regBits dr ++ regBits sr1 ++ 0b0#1 ++ ign ++ regBits sr2) =
      .and dr sr1 sr2 := by
  rw [regroup_RRR, decode_and_low, registerForm_flag, registerForm_sr2]
  rfl

theorem decode_and_immediate (dr sr1 : Reg) (imm : BitVec 5) :
    decode (Opcode.and.code ++ regBits dr ++ regBits sr1 ++ 0b1#1 ++ imm) = .andImm dr sr1 imm := by
  rw [regroup_RRI, decode_and_low, immediateForm_flag, immediateForm_imm5]
  rfl

/-! ### The destination write -/

/-- The frame of a destination write, general registers: all but the destination. -/
theorem defineReg_sameRegsBut (dr : Reg) (v : Word) (s : State) :
    SameRegsBut dr s (defineReg dr v s) := fun _ h => readReg_defineReg_of_ne h v s

/-- The frame of a destination write, memory, control, keyboard and console: that of `setcc`, since the write
of a register touches none of them. -/
theorem defineReg_sameRest (dr : Reg) (v : Word) (s : State) : SameRest s (defineReg dr v s) :=
  setcc_sameRest dr (writeReg dr v s)

/-- An instruction whose meaning is a destination write: the new value, its flag, and the frame. -/
theorem exec_of_defineReg {i : Instr} {dr : Reg} {v : Word} {s : State}
    (h : exec i s = .next (defineReg dr v s)) :
    ∃ t, exec i s = .next t ∧ readReg dr t = v ∧ FlagOf (readReg dr t) t.cond ∧
      SameRegsBut dr s t ∧ t.pc = s.pc ∧ SameRest s t := by
  have hflag : FlagOf (readReg dr (defineReg dr v s)) (defineReg dr v s).cond := by
    rw [readReg_defineReg_same, defineReg_cond]
    exact condOf_flagOf v
  exact ⟨defineReg dr v s, h, readReg_defineReg_same dr v s, hflag, defineReg_sameRegsBut dr v s,
    defineReg_pc dr v s, defineReg_sameRest dr v s⟩

/-! ### The five instructions -/

/-- Settles O6: ADD writes DR once, with the sum of the sources as they stand in the old state. -/
theorem addRegisterForm : Obligations.AddRegisterForm := fun dr sr1 sr2 ign _ =>
  ⟨decode_add_register dr sr1 sr2 ign, exec_of_defineReg rfl⟩

/-- Settles O7: as O6, with the sign-extended immediate for the second source. -/
theorem addImmediateForm : Obligations.AddImmediateForm := fun dr sr1 imm _ =>
  ⟨decode_add_immediate dr sr1 imm, exec_of_defineReg rfl⟩

/-- Settles O8: AND writes DR once, from the sources as they stand in the old state. -/
theorem andRegisterForm : Obligations.AndRegisterForm := fun dr sr1 sr2 ign _ =>
  ⟨decode_and_register dr sr1 sr2 ign, exec_of_defineReg rfl⟩

/-- Settles O9: as O8, with the immediate sign-extended as ADD's is. -/
theorem andImmediateForm : Obligations.AndImmediateForm := fun dr sr1 imm _ =>
  ⟨decode_and_immediate dr sr1 imm, exec_of_defineReg rfl⟩

/-- Settles O10: NOT writes the complement, and a complement is the distance to the all-ones word (R7). -/
theorem notComplements : Obligations.NotComplements := by
  intro dr sr1 ign s
  have hcomplement : ~~~(readReg sr1 s) = 0xFFFF - readReg sr1 s :=
    (BitVec.allOnes_sub_eq_not (readReg sr1 s)).symm
  refine ⟨decode_not_low dr sr1 ign, ?_⟩
  rw [← hcomplement]
  exact exec_of_defineReg rfl

end Sys2Proof.Machine
end

section
/-! PROOFS. JMP, JSR and JSRR (spec/42_control.md R92 to R96): the words of formats JMP, JSR and JSRR
(spec/30_encoding.md R51), the instruction each decodes to, and what a jump and a link change. -/

namespace Sys2Proof.Machine

open Sys2Proof.Laws.OpcodeField (top_of_MBO top_of_JSR)

/-! ### Decoding

Format JMP is read as RR is, with ignored bits in DR's place. Format JSRR too: there the place holds the
long flag, which is 0, and two ignored bits. -/

/-- The base register, whatever three bits stand in DR's place: they are the bits of some register. -/
theorem regField_base (c : BitVec 4) (top : BitVec 3) (base : Reg) (low : BitVec 6) :
    regField (c ++ top ++ regBits base ++ low) 6 = base := regField_sr1 c top.toFin base low

theorem regroup_JSRR (c : BitVec 4) (a : BitVec 1) (b : BitVec 2) (d : BitVec 3) (e : BitVec 6) :
    (c ++ a ++ b ++ d ++ e : Word) = c ++ (a ++ b) ++ d ++ e := by
  simp only [BitVec.append_assoc, BitVec.cast_eq]

/-- `ir[11]`, which chooses between JSR and JSRR (R53), in a word of format JSR. -/
theorem longFlag_JSR (c : BitVec 4) (flag : BitVec 1) (off : BitVec 11) :
    BitVec.getLsbD (w := 16) (c ++ flag ++ off) 11 = flag.getLsbD 0 := by
  rw [BitVec.getLsbD_append, if_neg (by decide), BitVec.getLsbD_append, if_pos (by decide)]

theorem offset11_JSR (c : BitVec 4) (flag : BitVec 1) (off : BitVec 11) :
    BitVec.extractLsb' (n := 16) 0 11 (c ++ flag ++ off) = off := by
  rw [BitVec.extractLsb'_append_eq_of_add_le (by decide), BitVec.extractLsb'_eq_self]

/-- `ir[11]` in a word of format JSRR: the highest bit of DR's place. -/
theorem longFlag_JSRR (c : BitVec 4) (flag : BitVec 1) (ign : BitVec 2) (b : BitVec 3) (low : BitVec 6) :
    BitVec.getLsbD (w := 16) (c ++ (flag ++ ign) ++ b ++ low) 11 = flag.getLsbD 0 := by
  rw [BitVec.getLsbD_append, if_neg (by decide), BitVec.getLsbD_append, if_neg (by decide),
    BitVec.getLsbD_append, if_pos (by decide), BitVec.getLsbD_append, if_neg (by decide)]

theorem decode_jmp (base : Reg) (ign : BitVec 3) (ign' : BitVec 6) :
    decode (Opcode.jmp.code ++ ign ++ regBits base ++ ign') = .jmp base := by
  rw [decode, top_of_MBO, ofCode_code]
  simp only [regField_base]

theorem decode_jsr (off : BitVec 11) : decode (Opcode.jsr.code ++ 0b1#1 ++ off) = .jsr off := by
  rw [decode, top_of_JSR, ofCode_code]
  simp only [longFlag_JSR, offset11_JSR]
  rfl

theorem decode_jsrr (base : Reg) (ign : BitVec 2) (ign' : BitVec 6) :
    decode (Opcode.jsr.code ++ 0b0#1 ++ ign ++ regBits base ++ ign') = .jsrr base := by
  have hbase : regField (Opcode.jsr.code ++ (0b0#1 ++ ign) ++ regBits base ++ ign') 6 = base :=
    regField_base Opcode.jsr.code (0b0#1 ++ ign) base ign'
  rw [regroup_JSRR, decode, top_of_MBO, ofCode_code]
  simp only [longFlag_JSRR, hbase]
  rfl

/-! ### The jump and the link -/

/-- The frame of a jump, general registers: `pc` is not one of them. -/
theorem setPc_sameRegs (p : Word) (s : State) : SameRegs s (setPc p s) := readReg_setPc p s

/-- The frame of a jump, memory, control, keyboard and console. -/
theorem setPc_sameRest (p : Word) (s : State) : SameRest s (setPc p s) := by
  have hmem : SameMemory s (setPc p s) := fun k => congrArg (·.readByte k) (setPc_mem p s)
  have hcontrol : SameControl s (setPc p s) :=
    ⟨setPc_running p s, setPc_fault p s, setPc_faultIr p s, setPc_held p s⟩
  have hkeyboard : SameKeyboard s (setPc p s) := ⟨setPc_input p s, setPc_polls p s, setPc_draws p s⟩
  have hconsole : SameConsole s (setPc p s) := ⟨setPc_output p s, setPc_flushed p s⟩
  exact ⟨hmem, hcontrol, hkeyboard, hconsole⟩

/-- The frame of the link's save, general registers: all but the link register. -/
theorem saveLink_sameRegsBut (s : State) : SameRegsBut Param.link s (saveLink s) :=
  fun _ h => readReg_saveLink_of_ne h s

/-- The frame of the link's save, memory, control, keyboard and console. -/
theorem saveLink_sameRest (s : State) : SameRest s (saveLink s) := by
  have hmem : SameMemory s (saveLink s) := fun k => congrArg (·.readByte k) (saveLink_mem s)
  have hcontrol : SameControl s (saveLink s) :=
    ⟨saveLink_running s, saveLink_fault s, saveLink_faultIr s, saveLink_held s⟩
  have hkeyboard : SameKeyboard s (saveLink s) := ⟨saveLink_input s, saveLink_polls s, saveLink_draws s⟩
  have hconsole : SameConsole s (saveLink s) := ⟨saveLink_output s, saveLink_flushed s⟩
  exact ⟨hmem, hcontrol, hkeyboard, hconsole⟩

/-- R95's corner case: a read after the save finds the link in the link register, and the old value in every
other. -/
theorem readReg_saveLink (r : Reg) (s : State) :
    readReg r (saveLink s) = if r = Param.link then s.pc else readReg r s := by
  split
  next h => rw [h, readReg_saveLink_link]
  next h => exact readReg_saveLink_of_ne h s

/-- An instruction whose meaning is a save of the link and then a jump: the link, the target, and the frame.
`setPc` touches only `pc`, so what the save keeps the jump keeps. -/
theorem exec_of_jumpAndLink {i : Instr} {p : Word} {s : State}
    (h : exec i s = .next (setPc p (saveLink s))) :
    ∃ t, exec i s = .next t ∧ readReg Param.link t = s.pc ∧ t.pc = p ∧
      SameRegsBut Param.link s t ∧ t.cond = s.cond ∧ SameRest s t :=
  ⟨setPc p (saveLink s), h, readReg_saveLink_link s, setPc_pc p (saveLink s), saveLink_sameRegsBut s,
    saveLink_cond s, saveLink_sameRest s⟩

/-! ### The three instructions -/

/-- Settles O15: JMP is one jump, to the base register as it stands, and saves no link. -/
theorem jumpToRegister : Obligations.JumpToRegister := fun base ign ign' s =>
  ⟨decode_jmp base ign ign', setPc (readReg base s) s, rfl, setPc_pc (readReg base s) s,
    setPc_sameRegs (readReg base s) s, setPc_cond (readReg base s) s, setPc_sameRest (readReg base s) s⟩

/-- Settles O16: the save leaves `pc` as it was, so the target counts from the post-fetch `pc`. -/
theorem jumpToSubroutine : Obligations.JumpToSubroutine := fun off _ =>
  ⟨decode_jsr off, exec_of_jumpAndLink rfl⟩

/-- Settles O17: the base is read in the state with the link saved, and `readReg_saveLink` says what is
there. -/
theorem jumpToSubroutineRegister : Obligations.JumpToSubroutineRegister := by
  intro base ign ign' s
  refine ⟨decode_jsrr base ign ign', exec_of_jumpAndLink ?_⟩
  have htarget : readReg base (saveLink s) = if base = 7 then s.pc else readReg base s :=
    readReg_saveLink base s
  rw [← htarget]
  rfl

end Sys2Proof.Machine
end

section
/-! PROOFS. LD, LDR, LEA, ST, STI and STR (spec/43_load_store.md R100 to R107): the words of the formats MPC and
MBO (spec/30_encoding.md R51), the instruction each decodes to, and what one read and one store change. -/

namespace Sys2Proof.Machine

open Sys2Proof.Laws.OpcodeField (top_of_MPC top_of_MBO)

/-! ### Fields

In format MBO the register fields stand where RR has them, so `regField_dr` and `regField_sr1` find them. -/

theorem regField_MPC (c : BitVec 4) (r : Reg) (off : BitVec 9) :
    regField (c ++ regBits r ++ off) 9 = r := by
  apply regField_of_extract
  rw [BitVec.extractLsb'_append_eq_of_le (by decide), BitVec.extractLsb'_append_eq_of_add_le (by decide)]
  exact BitVec.extractLsb'_eq_self

theorem offset9_MPC (c : BitVec 4) (a : BitVec 3) (off : BitVec 9) :
    BitVec.extractLsb' (n := 16) 0 9 (c ++ a ++ off) = off := by
  rw [BitVec.extractLsb'_append_eq_of_add_le (by decide), BitVec.extractLsb'_eq_self]

theorem offset6_MBO (c : BitVec 4) (a b : BitVec 3) (off : BitVec 6) :
    BitVec.extractLsb' (n := 16) 0 6 (c ++ a ++ b ++ off) = off := by
  rw [BitVec.extractLsb'_append_eq_of_add_le (by decide), BitVec.extractLsb'_eq_self]

/-! ### Decoding -/

theorem decode_ld (dr : Reg) (off : BitVec 9) :
    decode (Opcode.ld.code ++ regBits dr ++ off) = .ld dr off := by
  rw [decode, top_of_MPC, ofCode_code]
  simp only [regField_MPC, offset9_MPC]

theorem decode_lea (dr : Reg) (off : BitVec 9) :
    decode (Opcode.lea.code ++ regBits dr ++ off) = .lea dr off := by
  rw [decode, top_of_MPC, ofCode_code]
  simp only [regField_MPC, offset9_MPC]

theorem decode_st (sr : Reg) (off : BitVec 9) :
    decode (Opcode.st.code ++ regBits sr ++ off) = .st sr off := by
  rw [decode, top_of_MPC, ofCode_code]
  simp only [regField_MPC, offset9_MPC]

theorem decode_sti (sr : Reg) (off : BitVec 9) :
    decode (Opcode.sti.code ++ regBits sr ++ off) = .sti sr off := by
  rw [decode, top_of_MPC, ofCode_code]
  simp only [regField_MPC, offset9_MPC]

theorem decode_ldr (dr base : Reg) (off : BitVec 6) :
    decode (Opcode.ldr.code ++ regBits dr ++ regBits base ++ off) = .ldr dr base off := by
  rw [decode, top_of_MBO, ofCode_code]
  simp only [regField_dr, regField_sr1, offset6_MBO]

theorem decode_str (sr base : Reg) (off : BitVec 6) :
    decode (Opcode.str.code ++ regBits sr ++ regBits base ++ off) = .str sr base off := by
  rw [decode, top_of_MBO, ofCode_code]
  simp only [regField_dr, regField_sr1, offset6_MBO]

/-! ### Frames one after the other -/

section
variable {s t u : State}

theorem SameRegs.trans (h : SameRegs s t) (h' : SameRegs t u) : SameRegs s u :=
  fun r => (h' r).trans (h r)

theorem SameRegs.trans_but {d : Reg} (h : SameRegs s t) (h' : SameRegsBut d t u) : SameRegsBut d s u :=
  fun r hr => (h' r hr).trans (h r)

theorem SameMemory.trans_but {a : Word} (h : SameMemory s t) (h' : SameMemoryBut a t u) :
    SameMemoryBut a s u := fun k hk => (h' k hk).trans (h k)

theorem SameControl.trans (h : SameControl s t) (h' : SameControl t u) : SameControl s u := by
  obtain ⟨hrunning, hfault, hfaultIr, hheld⟩ := h
  obtain ⟨hrunning', hfault', hfaultIr', hheld'⟩ := h'
  exact ⟨hrunning'.trans hrunning, hfault'.trans hfault, hfaultIr'.trans hfaultIr, hheld'.trans hheld⟩

theorem SameKeyboard.trans (h : SameKeyboard s t) (h' : SameKeyboard t u) : SameKeyboard s u := by
  obtain ⟨hinput, hpolls, hdraws⟩ := h
  obtain ⟨hinput', hpolls', hdraws'⟩ := h'
  exact ⟨hinput'.trans hinput, hpolls'.trans hpolls, hdraws'.trans hdraws⟩

theorem SameConsole.trans (h : SameConsole s t) (h' : SameConsole t u) : SameConsole s u := by
  obtain ⟨houtput, hflushed⟩ := h
  obtain ⟨houtput', hflushed'⟩ := h'
  exact ⟨houtput'.trans houtput, hflushed'.trans hflushed⟩

/-- What follows a read and touches neither memory nor keyboard adds nothing to the read's effect. -/
theorem ReadEffect.trans_same {a : Word} (h : ReadEffect a s t) (hmem : SameMemory t u)
    (hkeyboard : SameKeyboard t u) : ReadEffect a s u := by
  obtain ⟨hplain, hbytes⟩ := h
  refine ⟨fun ha => ?_, fun k h0 h2 => (hmem k).trans (hbytes k h0 h2)⟩
  obtain ⟨hmem', hkeyboard'⟩ := hplain ha
  exact ⟨fun k => (hmem k).trans (hmem' k), hkeyboard'.trans hkeyboard⟩

end

/-! ### One read

Its effect on memory and keyboard is `memRead_effect`. -/

theorem memRead_sameRegs (a : Word) (s : State) : SameRegs s (memRead a s).2 :=
  fun r => readReg_memRead r a s

theorem memRead_sameControl (a : Word) (s : State) : SameControl s (memRead a s).2 :=
  ⟨memRead_running a s, memRead_fault a s, memRead_faultIr a s, memRead_held a s⟩

theorem memRead_sameConsole (a : Word) (s : State) : SameConsole s (memRead a s).2 :=
  ⟨memRead_output a s, memRead_flushed a s⟩

/-! ### The end of a load: one read, then a destination write -/

theorem readReg_loadInto_same (dr : Reg) (ea : Word) (s : State) :
    readReg dr (loadInto dr ea s) = (memRead ea s).1 := readReg_defineReg_same _ _ _

theorem loadInto_flagOf (dr : Reg) (ea : Word) (s : State) :
    FlagOf (readReg dr (loadInto dr ea s)) (loadInto dr ea s).cond := by
  rw [readReg_loadInto_same, loadInto, defineReg_cond]
  exact condOf_flagOf (memRead ea s).1

theorem loadInto_sameRegsBut (dr : Reg) (ea : Word) (s : State) : SameRegsBut dr s (loadInto dr ea s) :=
  (memRead_sameRegs ea s).trans_but (defineReg_sameRegsBut dr (memRead ea s).1 (memRead ea s).2)

theorem loadInto_pc (dr : Reg) (ea : Word) (s : State) : (loadInto dr ea s).pc = s.pc := memRead_pc ea s

/-- After the read, a load changes what a destination write changes: no memory, control, keyboard or console. -/
theorem loadInto_sameRest_memRead (dr : Reg) (ea : Word) (s : State) :
    SameRest (memRead ea s).2 (loadInto dr ea s) :=
  defineReg_sameRest dr (memRead ea s).1 (memRead ea s).2

/-- An instruction whose meaning is the end of a load: the word read, its flag, the effect of the read, and the
frame. -/
theorem exec_of_loadInto {i : Instr} {dr : Reg} {ea : Word} {s : State}
    (h : exec i s = .next (loadInto dr ea s)) :
    ∃ t, exec i s = .next t ∧
      (readReg dr t = (memRead ea s).1 ∧ FlagOf (readReg dr t) t.cond ∧ t.mem = (memRead ea s).2.mem ∧
        SameKeyboard (memRead ea s).2 t ∧ ReadEffect ea s t ∧
        (ea ≠ Param.kbsr → readReg dr t = s.mem.readWord ea)) ∧
      SameRegsBut dr s t ∧ t.pc = s.pc ∧ SameControl s t ∧ SameConsole s t := by
  obtain ⟨hmem, hcontrol, hkeyboard, hconsole⟩ := loadInto_sameRest_memRead dr ea s
  have hplain : ea ≠ Param.kbsr → readReg dr (loadInto dr ea s) = s.mem.readWord ea := fun hea => by
    rw [readReg_loadInto_same, memRead_of_ne hea]
  exact ⟨loadInto dr ea s, h,
    ⟨readReg_loadInto_same dr ea s, loadInto_flagOf dr ea s, defineReg_mem _ _ _, hkeyboard,
      (memRead_effect ea s).trans_same hmem hkeyboard, hplain⟩,
    loadInto_sameRegsBut dr ea s, loadInto_pc dr ea s, (memRead_sameControl ea s).trans hcontrol,
    (memRead_sameConsole ea s).trans hconsole⟩

/-! ### One store -/

section
variable (a v : Word) (s : State)

theorem memWrite_readWord_same : (memWrite a v s).mem.readWord a = v :=
  Memory.readWord_writeWord_same s.mem a v

theorem memWrite_sameMemoryBut : SameMemoryBut a s (memWrite a v s) :=
  fun _ hk => Memory.readByte_writeWord_of_ne s.mem hk v

theorem memWrite_sameRegs : SameRegs s (memWrite a v s) := readReg_memWrite a v s

theorem memWrite_sameControl : SameControl s (memWrite a v s) :=
  ⟨memWrite_running a v s, memWrite_fault a v s, memWrite_faultIr a v s, memWrite_held a v s⟩

theorem memWrite_sameKeyboard : SameKeyboard s (memWrite a v s) :=
  ⟨memWrite_input a v s, memWrite_polls a v s, memWrite_draws a v s⟩

theorem memWrite_sameConsole : SameConsole s (memWrite a v s) :=
  ⟨memWrite_output a v s, memWrite_flushed a v s⟩

end

/-- An instruction whose meaning, from state `s₀`, is one store in state `s`: the word stored, and the frame
from `s` on. -/
theorem exec_of_memWrite {i : Instr} {a v : Word} {s₀ s : State}
    (h : exec i s₀ = .next (memWrite a v s)) :
    ∃ t, exec i s₀ = .next t ∧ t.mem.readWord a = v ∧ SameMemoryBut a s t ∧ SameRegs s t ∧ t.pc = s.pc ∧
      t.cond = s.cond ∧ SameControl s t ∧ SameKeyboard s t ∧ SameConsole s t :=
  ⟨memWrite a v s, h, memWrite_readWord_same a v s, memWrite_sameMemoryBut a v s, memWrite_sameRegs a v s,
    memWrite_pc a v s, memWrite_cond a v s, memWrite_sameControl a v s, memWrite_sameKeyboard a v s,
    memWrite_sameConsole a v s⟩

/-- STI as one read and one store. The read changes no register, so SR is that of the old state. -/
theorem exec_sti (sr : Reg) (off : BitVec 9) (s : State) :
    exec (.sti sr off) s =
      .next (memWrite (memRead (s.pc + sext off) s).1 (readReg sr s) (memRead (s.pc + sext off) s).2) := by
  rw [← readReg_memRead sr (s.pc + sext off) s]
  rfl

/-! ### The six instructions -/

/-- Settles O22: LD is the end of a load, from the PC-relative address. -/
theorem loadPcRelative : Obligations.LoadPcRelative := fun dr off _ =>
  ⟨decode_ld dr off, exec_of_loadInto rfl⟩

/-- Settles O24: as O22, from the base + offset address, which is formed before DR is written. -/
theorem loadBaseOffset : Obligations.LoadBaseOffset := fun dr base off _ =>
  ⟨decode_ldr dr base off, exec_of_loadInto rfl⟩

/-- Settles O25: LEA writes DR once, with the address itself, and reads nothing. -/
theorem loadEffectiveAddress : Obligations.LoadEffectiveAddress := fun dr off _ =>
  ⟨decode_lea dr off, exec_of_defineReg rfl⟩

/-- Settles O26: ST is one store, at the PC-relative address. -/
theorem storePcRelative : Obligations.StorePcRelative := fun sr off _ =>
  ⟨decode_st sr off, exec_of_memWrite rfl⟩

/-- Settles O28: as O26, at the base + offset address. -/
theorem storeBaseOffset : Obligations.StoreBaseOffset := fun sr base off _ =>
  ⟨decode_str sr base off, exec_of_memWrite rfl⟩

/-- Settles O27: STI is one store in the state that the pointer's read leaves, so each frame is that of the read
followed by that of the store. -/
theorem storeIndirect : Obligations.StoreIndirect := by
  intro sr off s
  obtain ⟨t, hexec, hword, hmem, hregs, hpc, hcond, hcontrol, hkeyboard, hconsole⟩ :=
    exec_of_memWrite (exec_sti sr off s)
  obtain ⟨hplain, hbytes⟩ := memRead_effect (s.pc + sext off) s
  refine ⟨decode_sti sr off, t, hexec, ⟨hword, hmem, hkeyboard, fun hpa => ?_, fun k hp h0 h2 => ?_⟩,
    (memRead_sameRegs _ s).trans hregs, hpc.trans (memRead_pc _ s), hcond.trans (memRead_cond _ s),
    (memRead_sameControl _ s).trans hcontrol, (memRead_sameConsole _ s).trans hconsole⟩
  · obtain ⟨hmem₀, hkeyboard₀⟩ := hplain hpa
    have hpointer : (memRead (s.pc + sext off) s).1 = s.mem.readWord (s.pc + sext off) :=
      congrArg Prod.fst (memRead_of_ne hpa s)
    exact ⟨hpointer, hmem₀.trans_but hmem, hkeyboard₀.trans hkeyboard⟩
  · exact (hmem k hp).trans (hbytes k h0 h2)

end Sys2Proof.Machine
end

section
/-! PROOFS. OUT, HALT and the vectors without a service (spec/44_trap.md R120, R122, R126, R127): the words of
format TRAP (spec/30_encoding.md R51), the service each vector selects, and what is emitted after the link's
save. -/

namespace Sys2Proof.Machine

open Sys2Proof.Laws.OpcodeField (top_of_TRAP)

/-! ### Decoding -/

theorem vector_TRAP (c ign : BitVec 4) (v : BitVec 8) :
    BitVec.extractLsb' (n := 16) 0 8 (c ++ ign ++ v) = v := by
  rw [BitVec.extractLsb'_append_eq_of_add_le (by decide), BitVec.extractLsb'_eq_self]

/-- A word of format TRAP is decoded by its vector alone: `ir[11:8]` is ignored. -/
theorem decode_trap (ign : BitVec 4) (v : BitVec 8) :
    decode (Opcode.trap.code ++ ign ++ v) = decodeTrap v := by
  rw [decode, top_of_TRAP, ofCode_code]
  simp only [vector_TRAP]

/-- The service vectors are those of R127's excluded range. -/
theorem toNat_of_mem_serviceVectors :
    ∀ v ∈ Param.serviceVectors, 0x20 ≤ v.toNat ∧ v.toNat ≤ 0x25 := by decide

theorem decodeTrap_of_notMem_serviceVectors {v : BitVec 8} (h : v ∉ Param.serviceVectors) :
    decodeTrap v = .trapOther v := by
  simp only [Param.serviceVectors, List.mem_cons, List.not_mem_nil, or_false, not_or] at h
  obtain ⟨hgetc, hout, hputs, hin, hputsp, hhalt⟩ := h
  rw [decodeTrap, if_neg hgetc, if_neg hout, if_neg hputs, if_neg hin, if_neg hputsp, if_neg hhalt]

/-! ### Output after the link's save -/

/-- What OUT and HALT share: the link is saved, `bs` emitted and all output flushed. The console's operations
touch only its own two fields, so what the save keeps they keep. -/
theorem linkedOutput_effect {bs : List Byte} {s t : State} (ht : t = conFlush (conOut bs (saveLink s))) :
    readReg Param.link t = s.pc ∧ t.output = s.output ++ bs ∧ t.flushed = t.output.length ∧
      SameRegsBut Param.link s t ∧ t.pc = s.pc ∧ t.cond = s.cond ∧
      SameMemory s t ∧ SameControl s t ∧ SameKeyboard s t := by
  subst ht
  obtain ⟨hmem, hcontrol, hkeyboard, _⟩ := saveLink_sameRest s
  exact ⟨readReg_saveLink_link s, conOut_output bs (saveLink s), conFlush_flushed _, saveLink_sameRegsBut s,
    saveLink_pc s, saveLink_cond s, hmem, hcontrol, hkeyboard⟩

/-! ### The three instructions -/

/-- Settles O32: OUT saves the link and emits one byte, the low byte of `x[0]` as it stands in the old state. -/
theorem outEmitsLowByte : Obligations.OutEmitsLowByte := fun ign _ =>
  ⟨decode_trap ign 0x21, _, rfl, linkedOutput_effect rfl⟩

/-- Settles O38: HALT emits its notice as OUT its byte; that it then clears `running` leaves the rest of that
effect as it is. -/
theorem haltClearsRunning : Obligations.HaltClearsRunning := by
  intro ign s
  obtain ⟨hlink, houtput, hflushed, hregs, hpc, hcond, hmem, ⟨_, hfault, hfaultIr, hheld⟩, hkeyboard⟩ :=
    linkedOutput_effect (bs := Config.haltNotice) (s := s) rfl
  exact ⟨decode_trap ign 0x25, _, rfl, hlink, rfl, houtput, hflushed, hregs, hpc, hcond, hmem, hkeyboard,
    hfault, hfaultIr, hheld⟩

/-- Settles O39: a vector outside the range is no service vector, and the link's save is all that is done. -/
theorem otherVectorWritesLinkOnly : Obligations.OtherVectorWritesLinkOnly := by
  intro ign v s hrange
  have hnoService : v ∉ Param.serviceVectors := fun hmem => by
    have hbounds := toNat_of_mem_serviceVectors v hmem
    omega
  exact ⟨(decode_trap ign v).trans (decodeTrap_of_notMem_serviceVectors hnoService), saveLink s, rfl,
    readReg_saveLink_link s, saveLink_sameRegsBut s, saveLink_pc s, saveLink_cond s, saveLink_sameRest s⟩

end Sys2Proof.Machine
end

section
/-! PROOFS. The loader (spec/70_reset_and_hazards.md R196 to R198): the words of a payload, and what loading them
stores and leaves alone. -/

namespace Sys2Proof.Machine

/-! ### The payload's words -/

/-- R196: big-endian, the first byte counts 256 times. -/
theorem wordOfBytes_toNat (hi lo : Byte) : (wordOfBytes hi lo).toNat = hi.toNat * 256 + lo.toNat := by
  rw [wordOfBytes, BitVec.toNat_append, ← Nat.shiftLeft_add_eq_or_of_lt lo.isLt, Nat.shiftLeft_eq]

/-- R196's `floor`: an odd trailing byte makes no word. -/
theorem payloadWords_length : ∀ bs : List Byte, (payloadWords bs).length = bs.length / 2
  | [] => rfl
  | [_] => by simp [payloadWords]
  | hi :: lo :: rest => by
    simp only [payloadWords, List.length_cons, payloadWords_length rest]
    omega

theorem payloadWords_getElem_toNat (bs : List Byte) (i : Nat) (hi : i < (payloadWords bs).length) :
    (payloadWords bs)[i].toNat = (bs.getD (2 * i) 0).toNat * 256 + (bs.getD (2 * i + 1) 0).toNat := by
  fun_induction payloadWords bs generalizing i with
  | case1 h l rest ih =>
    cases i with
    | zero => exact wordOfBytes_toNat h l
    | succ i => exact ih i (Nat.lt_of_succ_lt_succ hi)
  | case2 bs hshort => exact absurd hi (Nat.not_lt_zero i)

/-! ### Loading words -/

theorem loadWords_cons_of_lt {a : Nat} (ha : a < 0x10000) (w : Word) (ws : List Word) (m : Memory) :
    loadWords a (w :: ws) m = loadWords (a + 1) ws (m.writeWord (BitVec.ofNat 16 a) w) := if_pos ha

/-- R198: what lies past 0xFFFF is discarded. -/
theorem loadWords_of_not_lt {a : Nat} (ha : ¬ a < 0x10000) (ws : List Word) (m : Memory) :
    loadWords a ws m = m := by
  cases ws with
  | nil => rfl
  | cons w ws => exact if_neg ha

/-- The frame of `loadWords`. The written address is `a` itself, as nothing is written from 0x10000 on. -/
theorem readByte_loadWords_of_outside (ws : List Word) {a k : Nat} (hk : k / 2 < a ∨ a + ws.length ≤ k / 2)
    (m : Memory) : (loadWords a ws m).readByte k = m.readByte k := by
  induction ws generalizing a m with
  | nil => rfl
  | cons w ws ih =>
    rw [List.length_cons] at hk
    by_cases ha : a < 0x10000
    · have hne : k / 2 ≠ (BitVec.ofNat 16 a).toNat := by
        rw [BitVec.toNat_ofNat, Nat.mod_eq_of_lt ha]
        omega
      rw [loadWords_cons_of_lt ha, ih (by omega), Memory.readByte_writeWord_of_ne m hne]
    · rw [loadWords_of_not_lt ha]

theorem readWord_loadWords_of_lt (ws : List Word) {a : Nat} {b : Word} (hb : b.toNat < a) (m : Memory) :
    (loadWords a ws m).readWord b = m.readWord b := by
  have hhigh : cellOf b / 2 < a := by unfold cellOf; omega
  have hlow : (cellOf b + 1) / 2 < a := by unfold cellOf; omega
  simp only [Memory.readWord, readByte_loadWords_of_outside ws (.inl hhigh),
    readByte_loadWords_of_outside ws (.inl hlow)]

/-- R197: word `i` is stored at `a + i`; the later words lie above it and leave it. -/
theorem readWord_loadWords (ws : List Word) {a i : Nat} (hi : i < ws.length) (hfits : a + i < 0x10000)
    (m : Memory) : (loadWords a ws m).readWord (BitVec.ofNat 16 (a + i)) = ws[i] := by
  induction ws generalizing a i m with
  | nil => exact absurd hi (Nat.not_lt_zero i)
  | cons w ws ih =>
    have ha : a < 0x10000 := by omega
    rw [loadWords_cons_of_lt ha]
    cases i with
    | zero =>
      have hbelow : (BitVec.ofNat 16 a).toNat < a + 1 := by
        rw [BitVec.toNat_ofNat, Nat.mod_eq_of_lt ha]
        exact Nat.lt_succ_self a
      exact (readWord_loadWords_of_lt ws hbelow _).trans (Memory.readWord_writeWord_same m _ w)
    | succ i =>
      rw [show a + (i + 1) = a + 1 + i by omega]
      exact ih (Nat.lt_of_succ_lt_succ hi) (by omega) _

/-! ### The loader -/

/-- Settles O57: the image's memory is that of `loadWords` from its origin on. -/
theorem loadImageStoresPayload : Obligations.LoadImageStoresPayload := by
  intro hi lo payload s
  refine ⟨_, rfl, ⟨fun i hstored => ?_, fun k hk => ?_⟩, rfl⟩
  · have hi' : i < (payloadWords payload).length := by
      rw [payloadWords_length]
      omega
    have hfits : hi.toNat * 256 + lo.toNat + i < 0x10000 := by omega
    rw [wordOfBytes_toNat, readWord_loadWords _ hi' hfits, payloadWords_getElem_toNat]
  · rw [← payloadWords_length, ← wordOfBytes_toNat] at hk
    exact readByte_loadWords_of_outside _ hk s.mem

end Sys2Proof.Machine
end

section
/-! PROOFS. The decoder and the encoder (spec/30_encoding.md R50 to R60): encoded instructions decode to themselves,
decoded words encode to themselves but for the ignored bits, and decoding follows the opcode table. -/

namespace Sys2Proof.Machine

open Sys2Proof.Laws.OpcodeField (top_of_MPC top_of_RSV)

/-! ### Decoding: the formats that no earlier section reads -/

theorem nzp_MPC (c : BitVec 4) (nzp : BitVec 3) (off : BitVec 9) :
    BitVec.extractLsb' (n := 16) 9 3 (c ++ nzp ++ off) = nzp := by
  rw [BitVec.extractLsb'_append_eq_of_le (by decide), BitVec.extractLsb'_append_eq_of_add_le (by decide)]
  exact BitVec.extractLsb'_eq_self

theorem low12_RSV (c : BitVec 4) (low : BitVec 12) : BitVec.extractLsb' (n := 16) 0 12 (c ++ low) = low := by
  rw [BitVec.extractLsb'_append_eq_of_add_le (by decide), BitVec.extractLsb'_eq_self]

theorem decode_br (nzp : BitVec 3) (off : BitVec 9) :
    decode (Opcode.br.code ++ nzp ++ off) = .br nzp off := by
  rw [decode, top_of_MPC, ofCode_code]
  simp only [nzp_MPC, offset9_MPC]

theorem decode_ldi (dr : Reg) (off : BitVec 9) :
    decode (Opcode.ldi.code ++ regBits dr ++ off) = .ldi dr off := by
  rw [decode, top_of_MPC, ofCode_code]
  simp only [regField_MPC, offset9_MPC]

theorem decode_rti (low : BitVec 12) : decode (Opcode.rti.code ++ low) = .rti low := by
  rw [decode, top_of_RSV, ofCode_code]
  simp only [low12_RSV]

theorem decode_res (low : BitVec 12) : decode (Opcode.res.code ++ low) = .res low := by
  rw [decode, top_of_RSV, ofCode_code]
  simp only [low12_RSV]

/-- Settles O54: the encoder writes each instruction in its format, with one choice of the ignored bits, and the
format decodes to the instruction whatever they are. -/
theorem decodeOfEncode : Obligations.DecodeOfEncode := by
  intro i hwf
  cases i with
  | br nzp off => exact decode_br nzp off
  | add dr sr1 sr2 => exact decode_add_register dr sr1 sr2 0b00#2
  | addImm dr sr1 imm => exact decode_add_immediate dr sr1 imm
  | ld dr off => exact decode_ld dr off
  | st sr off => exact decode_st sr off
  | jsr off => exact decode_jsr off
  | jsrr base => exact decode_jsrr base 0b00#2 0b000000#6
  | and dr sr1 sr2 => exact decode_and_register dr sr1 sr2 0b00#2
  | andImm dr sr1 imm => exact decode_and_immediate dr sr1 imm
  | ldr dr base off => exact decode_ldr dr base off
  | str sr base off => exact decode_str sr base off
  | rti low => exact decode_rti low
  | not dr sr1 => exact decode_not_low dr sr1 0b111111#6
  | ldi dr off => exact decode_ldi dr off
  | sti sr off => exact decode_sti sr off
  | jmp base => exact decode_jmp base 0b000#3 0b000000#6
  | res low => exact decode_res low
  | lea dr off => exact decode_lea dr off
  | trapGetc => exact decode_trap 0b0000#4 Param.vectGetc
  | trapOut => exact decode_trap 0b0000#4 Param.vectOut
  | trapPuts => exact decode_trap 0b0000#4 Param.vectPuts
  | trapIn => exact decode_trap 0b0000#4 Param.vectIn
  | trapPutsp => exact decode_trap 0b0000#4 Param.vectPutsp
  | trapHalt => exact decode_trap 0b0000#4 Param.vectHalt
  | trapOther v =>
    have hnoService : v ∉ Param.serviceVectors := by simpa [Instr.wellFormed] using hwf
    exact (decode_trap 0b0000#4 v).trans (decodeTrap_of_notMem_serviceVectors hnoService)

/-- Settles O53: fourteen closed words, each decoded by evaluation. -/
theorem specWordsDecode : Obligations.SpecWordsDecode := by
  unfold Obligations.SpecWordsDecode
  decide

/-! ### A word in its fields -/

theorem code_ofCode (c : BitVec 4) : (Opcode.ofCode c).code = c := by
  revert c
  decide

/-- Neighbouring fields of a word are one field. -/
theorem extract_join (w : Word) (lo n m : Nat) :
    w.extractLsb' (lo + n) m ++ w.extractLsb' lo n = w.extractLsb' lo (m + n) :=
  BitVec.extractLsb'_append_extractLsb'_eq_extractLsb' rfl

theorem extract_flag (w : Word) (k : Nat) : w.extractLsb' k 1 = BitVec.ofBool (w.getLsbD k) := by
  apply BitVec.eq_of_getLsbD_eq
  intro j hj
  obtain rfl : j = 0 := by omega
  simp

theorem flag_set {w : Word} {k : Nat} (h : w.getLsbD k = true) : w.extractLsb' k 1 = 0b1#1 := by
  rw [extract_flag, h]
  rfl

theorem flag_clear {w : Word} {k : Nat} (h : ¬ w.getLsbD k = true) : w.extractLsb' k 1 = 0b0#1 := by
  rw [extract_flag, Bool.eq_false_of_not_eq_true h]
  rfl

/-! A word of a given opcode, in the fields of each format of R51. -/

section
variable {w : Word} {o : Opcode} (h : Opcode.ofCode (w.extractLsb' 12 4) = o)
include h

theorem top_of_ofCode : w.extractLsb' 12 4 = o.code := by rw [← h, code_ofCode]

theorem word_RSV : o.code ++ w.extractLsb' 0 12 = w := by
  rw [← top_of_ofCode h, extract_join w 0 12]
  exact BitVec.extractLsb'_eq_self

theorem word_MPC : o.code ++ w.extractLsb' 9 3 ++ w.extractLsb' 0 9 = w := by
  rw [← top_of_ofCode h, extract_join w 9 3, extract_join w 0 9]
  exact BitVec.extractLsb'_eq_self

theorem word_MBO : o.code ++ w.extractLsb' 9 3 ++ w.extractLsb' 6 3 ++ w.extractLsb' 0 6 = w := by
  rw [← top_of_ofCode h, extract_join w 9 3, extract_join w 6 3, extract_join w 0 6]
  exact BitVec.extractLsb'_eq_self

theorem word_TRAP : o.code ++ w.extractLsb' 8 4 ++ w.extractLsb' 0 8 = w := by
  rw [← top_of_ofCode h, extract_join w 8 4, extract_join w 0 8]
  exact BitVec.extractLsb'_eq_self

theorem word_RRI {f : BitVec 1} (hf : w.extractLsb' 5 1 = f) :
    o.code ++ w.extractLsb' 9 3 ++ w.extractLsb' 6 3 ++ f ++ w.extractLsb' 0 5 = w := by
  rw [← top_of_ofCode h, ← hf, extract_join w 9 3, extract_join w 6 3, extract_join w 5 1,
    extract_join w 0 5]
  exact BitVec.extractLsb'_eq_self

theorem word_RRR {f : BitVec 1} (hf : w.extractLsb' 5 1 = f) :
    o.code ++ w.extractLsb' 9 3 ++ w.extractLsb' 6 3 ++ f ++ w.extractLsb' 3 2 ++
      w.extractLsb' 0 3 = w := by
  rw [← top_of_ofCode h, ← hf, extract_join w 9 3, extract_join w 6 3, extract_join w 5 1,
    extract_join w 3 2, extract_join w 0 3]
  exact BitVec.extractLsb'_eq_self

theorem word_JSR {f : BitVec 1} (hf : w.extractLsb' 11 1 = f) :
    o.code ++ f ++ w.extractLsb' 0 11 = w := by
  rw [← top_of_ofCode h, ← hf, extract_join w 11 1, extract_join w 0 11]
  exact BitVec.extractLsb'_eq_self

theorem word_JSRR {f : BitVec 1} (hf : w.extractLsb' 11 1 = f) :
    o.code ++ f ++ w.extractLsb' 9 2 ++ w.extractLsb' 6 3 ++ w.extractLsb' 0 6 = w := by
  rw [← top_of_ofCode h, ← hf, extract_join w 11 1, extract_join w 9 2, extract_join w 6 3,
    extract_join w 0 6]
  exact BitVec.extractLsb'_eq_self

end

/-! ### The ignored bits (R56): whatever they are, they are lost where the mask is all ones -/

theorem ignored_RRR (c : BitVec 4) (a b : BitVec 3) (d : BitVec 1) (x y : BitVec 2) (e : BitVec 3) :
    (c ++ a ++ b ++ d ++ x ++ e : Word) ||| 0x0018 = (c ++ a ++ b ++ d ++ y ++ e) ||| 0x0018 := by
  rw [show (0x0018 : Word) = 0#4 ++ 0#3 ++ 0#3 ++ 0#1 ++ BitVec.allOnes 2 ++ 0#3 from rfl]
  simp only [BitVec.or_append, BitVec.or_allOnes]

theorem ignored_RR (c : BitVec 4) (a b : BitVec 3) (x y : BitVec 6) :
    (c ++ a ++ b ++ x : Word) ||| 0x003F = (c ++ a ++ b ++ y) ||| 0x003F := by
  rw [show (0x003F : Word) = 0#4 ++ 0#3 ++ 0#3 ++ BitVec.allOnes 6 from rfl]
  simp only [BitVec.or_append, BitVec.or_allOnes]

theorem ignored_JMP (c : BitVec 4) (x y : BitVec 3) (b : BitVec 3) (x' y' : BitVec 6) :
    (c ++ x ++ b ++ x' : Word) ||| 0x0E3F = (c ++ y ++ b ++ y') ||| 0x0E3F := by
  rw [show (0x0E3F : Word) = 0#4 ++ BitVec.allOnes 3 ++ 0#3 ++ BitVec.allOnes 6 from rfl]
  simp only [BitVec.or_append, BitVec.or_allOnes]

theorem ignored_JSRR (c : BitVec 4) (a : BitVec 1) (x y : BitVec 2) (b : BitVec 3) (x' y' : BitVec 6) :
    (c ++ a ++ x ++ b ++ x' : Word) ||| 0x063F = (c ++ a ++ y ++ b ++ y') ||| 0x063F := by
  rw [show (0x063F : Word) = 0#4 ++ 0#1 ++ BitVec.allOnes 2 ++ 0#3 ++ BitVec.allOnes 6 from rfl]
  simp only [BitVec.or_append, BitVec.or_allOnes]

theorem ignored_TRAP (c x y : BitVec 4) (v : BitVec 8) :
    (c ++ x ++ v : Word) ||| 0x0F00 = (c ++ y ++ v) ||| 0x0F00 := by
  rw [show (0x0F00 : Word) = 0#4 ++ BitVec.allOnes 4 ++ 0#8 from rfl]
  simp only [BitVec.or_append, BitVec.or_allOnes]

theorem encode_decodeTrap (v : BitVec 8) : encode (decodeTrap v) = encodeTrap v := by
  unfold decodeTrap
  split_ifs <;> simp only [encode, *]

theorem ignoredBits_decodeTrap (v : BitVec 8) : ignoredBits (decodeTrap v) = 0x0F00 := by
  unfold decodeTrap
  split_ifs <;> rfl

theorem wellFormed_decodeTrap (v : BitVec 8) : (decodeTrap v).wellFormed = true := by
  unfold decodeTrap
  split_ifs <;> simp [Instr.wellFormed, Param.serviceVectors, *]

theorem or_ignored {x w : Word} (h : x = w) (m : Word) : x ||| m = w ||| m := by rw [h]

/-! ### Encoding what was decoded -/

theorem wellFormed_decode (w : Word) : (decode w).wellFormed = true := by
  unfold decode
  cases Opcode.ofCode (w.extractLsb' 12 4) with
  | add | and | jsr => dsimp only; split <;> rfl
  | trap => exact wellFormed_decodeTrap _
  | br | ld | st | ldr | str | rti | not | ldi | sti | jmp | res | lea => rfl

/-- The encoder writes back every bit that the decoder read; the fields of the format are those of the word. -/
theorem encode_decode_or_ignoredBits (w : Word) :
    encode (decode w) ||| ignoredBits (decode w) = w ||| ignoredBits (decode w) := by
  unfold decode
  cases h : Opcode.ofCode (w.extractLsb' 12 4) with
  | br | ld | st | ldi | sti | lea => exact or_ignored (word_MPC h) _
  | ldr | str => exact or_ignored (word_MBO h) _
  | rti | res => exact or_ignored (word_RSV h) _
  | not => exact (ignored_RR _ _ _ _ _).trans (or_ignored (word_MBO h) _)
  | jmp => exact (ignored_JMP _ _ _ _ _ _).trans (or_ignored (word_MBO h) _)
  | add | and =>
    dsimp only
    split
    next hf => exact or_ignored (word_RRI h (flag_set hf)) _
    next hf => exact (ignored_RRR _ _ _ _ _ _ _).trans (or_ignored (word_RRR h (flag_clear hf)) _)
  | jsr =>
    dsimp only
    split
    next hf => exact or_ignored (word_JSR h (flag_set hf)) _
    next hf => exact (ignored_JSRR _ _ _ _ _ _ _).trans (or_ignored (word_JSRR h (flag_clear hf)) _)
  | trap =>
    dsimp only
    rw [encode_decodeTrap, ignoredBits_decodeTrap]
    exact (ignored_TRAP _ _ _ _).trans (or_ignored (word_TRAP h) _)

/-! ### Words that differ in ignored bits -/

section
variable {w w' m : Word} (h : w' ||| m = w ||| m)
include h

/-- Words that are alike outside `m` have the same fields outside `m`. -/
theorem extract_of_or_eq (lo n : Nat) (hm : m.extractLsb' lo n = 0) :
    w'.extractLsb' lo n = w.extractLsb' lo n := by
  simpa [BitVec.extractLsb'_or, hm] using congrArg (BitVec.extractLsb' lo n) h

theorem regField_of_or_eq (lo : Nat) (hm : m.extractLsb' lo 3 = 0) : regField w' lo = regField w lo :=
  congrArg BitVec.toFin (extract_of_or_eq h lo 3 hm)

theorem getLsbD_of_or_eq (k : Nat) (hm : m.getLsbD k = false) : w'.getLsbD k = w.getLsbD k := by
  simpa [hm] using congrArg (·.getLsbD k) h

end

theorem top_ignoredBits (i : Instr) : (ignoredBits i).extractLsb' 12 4 = 0 := by
  cases i <;> (simp only [ignoredBits]; decide)

/-- The fields that a format reads lie outside its ignored bits. -/
theorem decode_eq_of_or_ignoredBits {w w' : Word}
    (h : w' ||| ignoredBits (decode w) = w ||| ignoredBits (decode w)) : decode w' = decode w := by
  have htop := extract_of_or_eq h 12 4 (top_ignoredBits _)
  unfold decode at h ⊢
  rw [htop]
  cases ho : Opcode.ofCode (w.extractLsb' 12 4) with
  | br =>
    simp only [ho, ignoredBits] at h ⊢
    rw [extract_of_or_eq h 9 3 (by decide), extract_of_or_eq h 0 9 (by decide)]
  | ld | st | ldi | sti | lea =>
    simp only [ho, ignoredBits] at h ⊢
    rw [regField_of_or_eq h 9 (by decide), extract_of_or_eq h 0 9 (by decide)]
  | ldr | str =>
    simp only [ho, ignoredBits] at h ⊢
    rw [regField_of_or_eq h 9 (by decide), regField_of_or_eq h 6 (by decide), extract_of_or_eq h 0 6 (by decide)]
  | rti | res =>
    simp only [ho, ignoredBits] at h ⊢
    rw [extract_of_or_eq h 0 12 (by decide)]
  | not =>
    simp only [ho, ignoredBits] at h ⊢
    rw [regField_of_or_eq h 9 (by decide), regField_of_or_eq h 6 (by decide)]
  | jmp =>
    simp only [ho, ignoredBits] at h ⊢
    rw [regField_of_or_eq h 6 (by decide)]
  | add | and =>
    simp only [ho] at h ⊢
    cases hf : w.getLsbD 5 with
    | true =>
      simp only [hf, if_true, ignoredBits] at h
      simp only [getLsbD_of_or_eq h 5 (by decide), hf, if_true, regField_of_or_eq h 9 (by decide),
        regField_of_or_eq h 6 (by decide), extract_of_or_eq h 0 5 (by decide)]
    | false =>
      simp only [hf, Bool.false_eq_true, if_false, ignoredBits] at h
      simp only [getLsbD_of_or_eq h 5 (by decide), hf, Bool.false_eq_true, if_false, regField_of_or_eq h 9 (by decide),
        regField_of_or_eq h 6 (by decide), regField_of_or_eq h 0 (by decide)]
  | jsr =>
    simp only [ho] at h ⊢
    cases hf : w.getLsbD 11 with
    | true =>
      simp only [hf, if_true, ignoredBits] at h
      simp only [getLsbD_of_or_eq h 11 (by decide), hf, if_true, extract_of_or_eq h 0 11 (by decide)]
    | false =>
      simp only [hf, Bool.false_eq_true, if_false, ignoredBits] at h
      simp only [getLsbD_of_or_eq h 11 (by decide), hf, Bool.false_eq_true, if_false, regField_of_or_eq h 6 (by decide)]
  | trap =>
    simp only [ho, ignoredBits_decodeTrap] at h ⊢
    rw [extract_of_or_eq h 0 8 (by decide)]

/-- Settles O55: the decoder reads every bit of its format that is not ignored, and no other. -/
theorem decodeDropsOnlyIgnoredBits : Obligations.DecodeDropsOnlyIgnoredBits := fun w =>
  ⟨wellFormed_decode w, encode_decode_or_ignoredBits w, fun _ h => decode_eq_of_or_ignoredBits h⟩

/-! ### The opcode table: what a mask leaves of a word of a given opcode -/

section
variable {w : Word} {o : Opcode} (h : Opcode.ofCode (w.extractLsb' 12 4) = o)
include h

theorem and_F000 : w &&& 0xF000 = o.code ++ 0#12 := by
  conv_lhs => rw [← word_RSV h, show (0xF000 : Word) = BitVec.allOnes 4 ++ 0#12 from rfl]
  rw [BitVec.and_append]
  simp only [BitVec.and_allOnes, BitVec.and_zero]

theorem and_F020 {f : BitVec 1} (hf : w.extractLsb' 5 1 = f) :
    w &&& 0xF020 = o.code ++ 0#3 ++ 0#3 ++ f ++ 0#5 := by
  conv_lhs =>
    rw [← word_RRI h hf, show (0xF020 : Word) = BitVec.allOnes 4 ++ 0#3 ++ 0#3 ++ BitVec.allOnes 1 ++ 0#5 from rfl]
  rw [BitVec.and_append, BitVec.and_append, BitVec.and_append, BitVec.and_append]
  simp only [BitVec.and_allOnes, BitVec.and_zero]

theorem and_F800 {f : BitVec 1} (hf : w.extractLsb' 11 1 = f) : w &&& 0xF800 = o.code ++ f ++ 0#11 := by
  conv_lhs => rw [← word_JSR h hf, show (0xF800 : Word) = BitVec.allOnes 4 ++ BitVec.allOnes 1 ++ 0#11 from rfl]
  rw [BitVec.and_append, BitVec.and_append]
  simp only [BitVec.and_allOnes, BitVec.and_zero]

theorem and_F0FF {v : BitVec 8} (hv : w.extractLsb' 0 8 = v) : w &&& 0xF0FF = o.code ++ 0#4 ++ v := by
  conv_lhs =>
    rw [← word_TRAP h, hv, show (0xF0FF : Word) = BitVec.allOnes 4 ++ 0#4 ++ BitVec.allOnes 8 from rfl]
  rw [BitVec.and_append, BitVec.and_append]
  simp only [BitVec.and_allOnes, BitVec.and_zero]

end

/-- A word lies on the row of the instruction it decodes to. -/
theorem matches_tableRow_decode (w : Word) : w &&& (tableRow (decode w)).1 = (tableRow (decode w)).2 := by
  unfold decode
  cases h : Opcode.ofCode (w.extractLsb' 12 4) with
  | br | ld | st | ldr | str | rti | not | ldi | sti | jmp | res | lea => exact and_F000 h
  | add | and =>
    dsimp only
    split
    next hf => exact and_F020 h (flag_set hf)
    next hf => exact and_F020 h (flag_clear hf)
  | jsr =>
    dsimp only
    split
    next hf => exact and_F800 h (flag_set hf)
    next hf => exact and_F800 h (flag_clear hf)
  | trap =>
    dsimp only [decodeTrap]
    split_ifs with hgetc hout hputs hin hputsp hhalt
    · exact and_F0FF h hgetc
    · exact and_F0FF h hout
    · exact and_F0FF h hputs
    · exact and_F0FF h hin
    · exact and_F0FF h hputsp
    · exact and_F0FF h hhalt
    · exact and_F000 h

section
variable {w m v : Word} (h : w &&& m = v)
include h

/-- A word on a row has the row's value in every field that the mask tests. -/
theorem extract_of_and_eq (lo n : Nat) (hm : m.extractLsb' lo n = BitVec.allOnes n) :
    w.extractLsb' lo n = v.extractLsb' lo n := by
  rw [← h, BitVec.extractLsb'_and, hm, BitVec.and_allOnes]

theorem getLsbD_of_and_eq (k : Nat) (hm : m.getLsbD k = true) : w.getLsbD k = v.getLsbD k := by
  rw [← h, BitVec.getLsbD_and, hm, Bool.and_true]

end

/-- Every row tests the opcode, and has that of its instruction. -/
theorem top_tableRow (i : Instr) :
    (tableRow i).1.extractLsb' 12 4 = BitVec.allOnes 4 ∧ (tableRow i).2.extractLsb' 12 4 = i.opcode.code := by
  cases i <;> (simp only [tableRow, Instr.opcode]; decide)

/-- A word on the row of an instruction that is not TRAP.other decodes to that row: it has the row's opcode, and
its flag or vector where the row tests one. -/
theorem tableRow_decode_of_match {w : Word} {i : Instr} (hi : ∀ v, i ≠ .trapOther v)
    (h : w &&& (tableRow i).1 = (tableRow i).2) : tableRow (decode w) = tableRow i := by
  obtain ⟨hmask, hmatch⟩ := top_tableRow i
  have hop : Opcode.ofCode (w.extractLsb' 12 4) = i.opcode := by
    rw [extract_of_and_eq h 12 4 hmask, hmatch, ofCode_code]
  unfold decode
  rw [hop]
  cases i with
  | br | ld | st | ldr | str | rti | not | ldi | sti | jmp | res | lea => rfl
  | add | and =>
    have hf : w.getLsbD 5 = false :=
      (getLsbD_of_and_eq (m := 0xF020) h 5 (by decide)).trans (by simp only [tableRow]; decide)
    simp only [Instr.opcode, hf]
    rfl
  | addImm | andImm =>
    have hf : w.getLsbD 5 = true :=
      (getLsbD_of_and_eq (m := 0xF020) h 5 (by decide)).trans (by simp only [tableRow]; decide)
    simp only [Instr.opcode, hf]
    rfl
  | jsr =>
    have hf : w.getLsbD 11 = true :=
      (getLsbD_of_and_eq (m := 0xF800) h 11 (by decide)).trans (by simp only [tableRow]; decide)
    simp only [Instr.opcode, hf]
    rfl
  | jsrr =>
    have hf : w.getLsbD 11 = false :=
      (getLsbD_of_and_eq (m := 0xF800) h 11 (by decide)).trans (by simp only [tableRow]; decide)
    simp only [Instr.opcode, hf]
    rfl
  | trapGetc | trapOut | trapPuts | trapIn | trapPutsp | trapHalt =>
    have hv := extract_of_and_eq (m := 0xF0FF) h 0 8 (by decide)
    simp only [Instr.opcode, hv]
    rfl
  | trapOther v => exact absurd rfl (hi v)

/-- Settles O56: the row of a decoded word has its opcode, flag and vector, and these decide the decoding. -/
theorem decodeFollowsOpcodeTable : Obligations.DecodeFollowsOpcodeTable := fun w =>
  ⟨matches_tableRow_decode w, fun _ hi h => tableRow_decode_of_match hi h⟩

end Sys2Proof.Machine
end

section
/-! PROOFS. BR, RTI and RES (spec/42_control.md R90, R91; spec/45_reserved.md R140, R141). -/

namespace Sys2Proof.Machine

/-! ### BR -/

/-- BR's test picks the bit of `nzp` that belongs to the current flag (R90, R15). -/
theorem branchTaken_eq (nzp : BitVec 3) (s : State) :
    branchTaken nzp s =
      match s.cond with
      | .neg => nzp.getLsbD 2
      | .zero => nzp.getLsbD 1
      | .pos => nzp.getLsbD 0 := by
  unfold branchTaken
  cases s.cond <;> (revert nzp; decide)

/-- R61: no flag passes the test of three zero bits. -/
theorem branchTaken_zero (s : State) : branchTaken 0 s = false := by
  rw [branchTaken_eq]
  cases s.cond <;> rfl

theorem exec_br_of_taken {nzp : BitVec 3} {s : State} (h : branchTaken nzp s = true) (off : BitVec 9) :
    exec (.br nzp off) s = .next (setPc (s.pc + sext off) s) := by
  rw [exec, execBr, h]
  rfl

theorem exec_br_of_not_taken {nzp : BitVec 3} {s : State} (h : branchTaken nzp s = false) (off : BitVec 9) :
    exec (.br nzp off) s = .next s := by
  rw [exec, execBr, h]
  rfl

/-- BR taken or not as one jump: where it is not taken, to the incremented `pc`. -/
theorem exec_br (nzp : BitVec 3) (off : BitVec 9) (s : State) :
    exec (.br nzp off) s = .next (setPc (if branchTaken nzp s then s.pc + sext off else s.pc) s) := by
  cases h : branchTaken nzp s with
  | true => exact exec_br_of_taken h off
  | false => exact exec_br_of_not_taken h off

/-- Settles O13: BR is one jump, whose target `branchTaken_eq` gives flag by flag. -/
theorem branchFollowsFlag : Obligations.BranchFollowsFlag := by
  intro nzp off s
  refine ⟨decode_br nzp off, _, exec_br nzp off s, ?_, setPc_sameRegs _ s, setPc_cond _ s, setPc_sameRest _ s⟩
  rw [setPc_pc, branchTaken_eq]
  cases s.cond <;> rfl

theorem extract_eq_zero_of_lt {w : Word} {lo : Nat} (h : w.toNat < 2 ^ lo) (n : Nat) : w.extractLsb' lo n = 0 := by
  apply BitVec.eq_of_toNat_eq
  rw [BitVec.extractLsb'_toNat, Nat.shiftRight_eq_div_pow, Nat.div_eq_of_lt h]
  simp

/-- Settles O14: such a word has opcode 0 and three zero bits after it, so it is a BR that no flag takes. -/
theorem neverTakenBranchIsNoOp : Obligations.NeverTakenBranchIsNoOp := by
  intro w hw s
  have hdecode : decode w = .br 0 (w.extractLsb' 0 9) := by
    unfold decode
    rw [extract_eq_zero_of_lt (lo := 12) (by omega) 4, extract_eq_zero_of_lt (lo := 9) hw 3]
    rfl
  rw [hdecode]
  exact exec_br_of_not_taken (branchTaken_zero s) _

/-! ### RTI and RES -/

/-- Settles O40: the word that each records is the one its encoding gives, all of it. -/
theorem reservedOpcodeFaults : Obligations.ReservedOpcodeFaults := fun low _ =>
  ⟨decode_rti low, decode_res low, rfl, rfl⟩

end Sys2Proof.Machine
end

section
/-! PROOFS. Reset, launch and the stopped states (spec/70_reset_and_hazards.md R190 to R199;
spec/40_execution_cycle.md R70). -/

namespace Sys2Proof.Machine

/-! ### Reset -/

theorem readReg_reset (r : Reg) : readReg r State.reset = Param.gprReset := by
  revert r
  decide

/-- Settles O1: memory at reset is the empty list, which reads 0 everywhere. -/
theorem resetLeavesSpecState : Obligations.ResetLeavesSpecState :=
  ⟨readReg_reset, rfl, rfl, rfl, rfl, Memory.readWord_nil, rfl⟩

/-- Settles O2: the block's fields are those of `State.reset`, the environment's those of `s`. -/
theorem resetEventClearsBlock : Obligations.ResetEventClearsBlock := fun _ =>
  ⟨_, rfl, readReg_reset, rfl, rfl, rfl, rfl, rfl, fun _ => rfl, ⟨rfl, rfl, rfl⟩, ⟨rfl, rfl⟩⟩

/-- Memory alone decides whether a state that has not faulted and holds nothing meets the invariant. -/
theorem Inv.of_wf {s : State} (hmem : s.mem.wf) (hfault : s.fault = false) (hheld : s.held = none) : Inv s where
  memory := hmem
  faultKeepsRunning h := by rw [hfault] at h; cases h
  faultRecord h := by rw [hfault] at h; cases h
  heldRuns h := absurd hheld h

/-- Settles O51: memory is empty, and the two conditional parts have nothing to say of a state without a fault
or a hold. -/
theorem resetMeetsInvariant : Obligations.ResetMeetsInvariant :=
  ⟨.of_wf Memory.wf_nil rfl rfl, rfl, rfl⟩

/-! ### Images -/

theorem loadWords_wf (ws : List Word) {a : Nat} {m : Memory} (h : m.wf) : (loadWords a ws m).wf := by
  induction ws generalizing a m with
  | nil => exact h
  | cons w ws ih =>
    by_cases ha : a < 0x10000
    · rw [loadWords_cons_of_lt ha]
      exact ih (Memory.wf_writeWord h _ w)
    · rw [loadWords_of_not_lt ha]
      exact h

/-- An image that loads changes memory alone, and keeps its canonical form. -/
theorem loadImage_next {image : List Byte} {s t : State} (h : loadImage image s = .next t) :
    t = { s with mem := t.mem } ∧ (s.mem.wf → t.mem.wf) := by
  match image, h with
  | _ :: _ :: payload, h =>
    obtain rfl := Host.Outcome.next.inj h
    exact ⟨rfl, loadWords_wf (payloadWords payload)⟩
  | [], h => cases h
  | [_], h => cases h

/-- R199: a list of images that loads begins with one that does. -/
theorem loadImages_cons_next {image : Option (List Byte)} {rest : List (Option (List Byte))} {s t : State}
    (h : loadImages (image :: rest) s = .next t) :
    ∃ bytes u, image = some bytes ∧ loadImage bytes s = .next u ∧ loadImages rest u = .next t := by
  cases image with
  | none => cases h
  | some bytes =>
    rw [loadImages] at h
    split at h
    next u hu => exact ⟨bytes, u, rfl, hu, h⟩
    all_goals cases h

theorem loadImages_cons_of_next {bytes : List Byte} {s u : State} (h : loadImage bytes s = .next u)
    (rest : List (Option (List Byte))) : loadImages (some bytes :: rest) s = loadImages rest u := by
  rw [loadImages, h]

/-- Images that load change memory alone, and keep its canonical form. -/
theorem loadImages_next {images : List (Option (List Byte))} {s t : State} (h : loadImages images s = .next t) :
    t = { s with mem := t.mem } ∧ (s.mem.wf → t.mem.wf) := by
  induction images generalizing s with
  | nil =>
    obtain rfl := Host.Outcome.next.inj h
    exact ⟨rfl, id⟩
  | cons image rest ih =>
    obtain ⟨_, u, _, hu, hrest⟩ := loadImages_cons_next h
    obtain ⟨hsame, hwf⟩ := loadImage_next hu
    obtain ⟨hsame', hwf'⟩ := ih hrest
    refine ⟨?_, fun hs => hwf' (hwf hs)⟩
    rw [hsame', hsame]

/-- Images after images that load are loaded in the state that those leave. -/
theorem loadImages_append {good : List (Option (List Byte))} {s t : State} (h : loadImages good s = .next t)
    (rest : List (Option (List Byte))) : loadImages (good ++ rest) s = loadImages rest t := by
  induction good generalizing s with
  | nil =>
    obtain rfl := Host.Outcome.next.inj h
    rfl
  | cons image good ih =>
    obtain ⟨_, u, rfl, hu, hgood⟩ := loadImages_cons_next h
    rw [List.cons_append, loadImages_cons_of_next hu, ih hgood]

theorem loadImage_of_short {bytes : List Byte} (h : bytes.length < 2) (s : State) :
    loadImage bytes s = .refused .imageTooShort := by
  match bytes, h with
  | [], _ => rfl
  | [_], _ => rfl

/-- Settles O58: a launch is images loaded at reset. -/
theorem launchMeetsInvariant : Obligations.LaunchMeetsInvariant := by
  intro images t h
  obtain ⟨hsame, hwf⟩ := loadImages_next h
  have hmem := hwf Memory.wf_nil
  rw [hsame]
  exact ⟨.of_wf hmem rfl rfl, rfl, rfl⟩

/-- Settles O59: what stands after the good images is met in the state they leave. -/
theorem badImageStopsLaunch : Obligations.BadImageStopsLaunch := by
  intro good rest bytes s t h
  refine ⟨loadImages_append h _, fun hshort => ?_, (loadImages_next h).1⟩
  rw [loadImages_append h, loadImages, loadImage_of_short hshort]

/-! ### The stopped states and the start of a step -/

/-- Settles O3: `step` looks at `fault`, then at `running`, before anything else. -/
theorem stoppedMachineTakesNoStep : Obligations.StoppedMachineTakesNoStep := by
  refine fun s => ⟨fun ⟨hrunning, hfault⟩ => ?_, fun (hfault : s.fault = true) => ?_⟩
  · simp [step, hrunning, hfault]
  · simp [step, hfault]

/-- A Running machine that holds nothing executes what it fetches (R71). -/
theorem step_of_fetch {s : State} (hrun : Running s) (hheld : s.held = none) :
    step s = exec (decode (fetch s).1) (fetch s).2 := by
  obtain ⟨hrunning, hfault⟩ := hrun
  simp [step, hrunning, hfault, hheld]

/-- Settles O4: the fetch is one read at `pc` and the increment; away from `KBSR` the read is plain. -/
theorem stepRunsDecodedInstruction : Obligations.StepRunsDecodedInstruction := by
  refine fun s hrun hheld => ⟨step_of_fetch hrun hheld, fun hpc => ?_⟩
  rw [step_of_fetch hrun hheld, fetch_eq, memRead_of_ne hpc]
  rfl

/-- A Running machine that holds a step goes on with its service (R76). -/
theorem step_of_held {s : State} (hrun : Running s) {h : Held} (hheld : s.held = some h) :
    step s = exec (heldInstr h) (resume s) := by
  obtain ⟨hrunning, hfault⟩ := hrun
  simp [step, hrunning, hfault, hheld]

/-- Settles O5: `resume` is the increment, and there is no fetch. -/
theorem heldStepGoesOn : Obligations.HeldStepGoesOn := fun _ _ hrun hheld => step_of_held hrun hheld

end Sys2Proof.Machine
end

section
/-! PROOFS. The memory access layer (spec/20_memory.md R30 to R36): reads of `KBSR` whose poll the environment has
laid down, and what goes through them: LDI, the fetch, and stores that reach the next fetch. -/

namespace Sys2Proof.Machine

/-! ### Polls laid down -/

theorem kbdAvail_of_polls {s : State} {p : Bool} {ps : List Bool} (h : s.polls = p :: ps) :
    kbdAvail s = (p, { s with polls := ps }) := by
  rw [kbdAvail, h]

theorem kbdTake_of_input {s : State} {b : Byte} {bs : List Byte} (h : s.input = b :: bs) :
    kbdTake s = (b, { s with input := bs }) := by
  rw [kbdTake, h]

/-- Memory after a poll that found the key `b` (R31; decision D4). -/
def Memory.withKey (m : Memory) (b : Byte) : Memory :=
  (m.writeWord Param.kbsr 0x8000).writeWord Param.kbdr (zext8 b)

theorem Memory.readWord_withKey_kbsr (m : Memory) (b : Byte) : (m.withKey b).readWord Param.kbsr = 0x8000 := by
  rw [withKey, readWord_writeWord_of_ne _ (by decide), readWord_writeWord_same]

theorem Memory.readWord_withKey_kbdr (m : Memory) (b : Byte) : (m.withKey b).readWord Param.kbdr = zext8 b :=
  readWord_writeWord_same _ _ _

theorem Memory.readByte_withKey_of_ne (m : Memory) (b : Byte) {k : Nat} (h0 : k / 2 ≠ Param.kbsr.toNat)
    (h2 : k / 2 ≠ Param.kbdr.toNat) : (m.withKey b).readByte k = m.readByte k := by
  rw [withKey, readByte_writeWord_of_ne _ h2, readByte_writeWord_of_ne _ h0]

theorem Memory.readWord_withKey_of_ne (m : Memory) (b : Byte) {a : Word} (h0 : a ≠ Param.kbsr)
    (h2 : a ≠ Param.kbdr) : (m.withKey b).readWord a = m.readWord a := by
  rw [withKey, readWord_writeWord_of_ne _ h2, readWord_writeWord_of_ne _ h0]

/-- A read of `KBSR` that finds a key: the ready word, and one poll and one byte taken. -/
theorem memRead_kbsr_of_key {s : State} {ps : List Bool} {b : Byte} {bs : List Byte}
    (hp : s.polls = true :: ps) (hi : s.input = b :: bs) :
    memRead Param.kbsr s = (0x8000, { s with mem := s.mem.withKey b, input := bs, polls := ps }) := by
  have havail := kbdAvail_of_polls hp
  have hkey : (kbdAvail s).1 = true := by rw [havail]
  have htake : kbdTake (kbdAvail s).2 = (b, { s with input := bs, polls := ps }) := by
    rw [havail]
    exact kbdTake_of_input hi
  rw [memRead_kbsr, pollKeyboard_key hkey, htake, hkey]
  rfl

/-- A read of `KBSR` that finds no key: 0, and one poll taken. -/
theorem memRead_kbsr_of_no_key {s : State} {ps : List Bool} (hp : s.polls = false :: ps) :
    memRead Param.kbsr s = (0x0000, { s with mem := s.mem.writeWord Param.kbsr 0, polls := ps }) := by
  have havail := kbdAvail_of_polls hp
  have hkey : (kbdAvail s).1 = false := by rw [havail]
  rw [memRead_kbsr, pollKeyboard_no_key hkey, havail]
  rfl

/-- A read of `KBSR` answers what the poll answered: the ready word or 0. -/
theorem memRead_kbsr_value (s : State) :
    (memRead Param.kbsr s).1 = 0x8000 ∨ (memRead Param.kbsr s).1 = 0x0000 := by
  rw [memRead_kbsr]
  cases (kbdAvail s).1
  · exact .inr rfl
  · exact .inl rfl

/-! ### The memory access layer -/

/-- Settles O18: the interception is at `KBSR` alone. -/
theorem readElsewhereIsPlain : Obligations.ReadElsewhereIsPlain := fun _ s ha => memRead_of_ne ha s

/-- Settles O19: the two clauses on a poll laid down are `memRead_kbsr_of_key` and `memRead_kbsr_of_no_key`; the
frame is that of every read. -/
theorem statusReadPolls : Obligations.StatusReadPolls := by
  refine fun s => ⟨memRead_kbsr_value s, fun ps b bs hp hi => ?_, fun ps hp => ?_, memRead_effect _ s,
    memRead_sameRegs _ s, memRead_pc _ s, memRead_cond _ s, memRead_sameControl _ s, memRead_sameConsole _ s⟩
  · exact ⟨_, memRead_kbsr_of_key hp hi, Memory.readWord_withKey_kbsr s.mem b,
      Memory.readWord_withKey_kbdr s.mem b, rfl, rfl, rfl⟩
  · exact ⟨_, memRead_kbsr_of_no_key hp, Memory.readWord_writeWord_same s.mem Param.kbsr 0,
      Memory.readWord_writeWord_of_ne (a := Param.kbsr) (b := Param.kbdr) s.mem (by decide) 0, rfl, rfl, rfl⟩

/-- Settles O20: two reads one after the other. Where the second finds no key it writes `KBSR` alone, so `KBDR`
keeps the first byte; where it finds one but no byte is pending, only the polls are claimed. -/
theorem statusReadIsDestructive : Obligations.StatusReadIsDestructive := by
  intro b bs again ps s hp hi
  have hfirst : (memRead 0xFE00 s).2 = { s with mem := s.mem.withKey b, input := bs, polls := again :: ps } :=
    congrArg Prod.snd (memRead_kbsr_of_key hp hi)
  rw [hfirst]
  generalize hu : ({ s with mem := s.mem.withKey b, input := bs, polls := again :: ps } : State) = u
  have hpolls : u.polls = again :: ps := by rw [← hu]
  have hkbdr : u.mem.readWord 0xFE02 = zext8 b := by rw [← hu]; exact Memory.readWord_withKey_kbdr s.mem b
  have hinput : u.input = bs := by rw [← hu]
  have hdraws : u.draws = s.draws := by rw [← hu]
  cases again with
  | false =>
    refine ⟨_, memRead_kbsr_of_no_key hpolls, nofun, fun _ => ⟨?_, hinput, hdraws⟩, rfl⟩
    exact (Memory.readWord_writeWord_of_ne (a := Param.kbsr) (b := Param.kbdr) u.mem (by decide) 0).trans hkbdr
  | true =>
    have hkey : (kbdAvail u).1 = true := by rw [kbdAvail_of_polls hpolls]
    have hread := memRead_kbsr u
    rw [hkey, if_pos rfl] at hread
    refine ⟨pollKeyboard u, hread, fun c cs _ hbs => ?_, nofun, ?_⟩
    · have hsecond := hread.symm.trans (memRead_kbsr_of_key hpolls (hinput.trans hbs))
      rw [(Prod.mk.inj hsecond).2]
      exact ⟨Memory.readWord_withKey_kbdr u.mem c, rfl, hdraws⟩
    · rw [pollKeyboard_key hkey, kbdAvail_of_polls hpolls]
      exact kbdTake_polls _

/-- A store changes no poll's answer. -/
theorem kbdAvail_memWrite_answer (a v : Word) (s : State) : (kbdAvail (memWrite a v s)).1 = (kbdAvail s).1 := by
  unfold kbdAvail
  rw [memWrite_polls]
  cases s.polls <;> rfl

/-- Settles O21: a store is one word write; a read of `KBSR` answers by the poll alone. -/
theorem writeIsPlainStore : Obligations.WriteIsPlainStore := by
  refine fun a v s => ⟨_, rfl, memWrite_readWord_same a v s, memWrite_sameMemoryBut a v s,
    fun _ hb => Memory.readWord_writeWord_of_ne s.mem hb v, memWrite_sameRegs a v s, rfl, rfl,
    memWrite_sameControl a v s, memWrite_sameKeyboard a v s, memWrite_sameConsole a v s, ?_⟩
  have hvalue : ∀ u : State, (memRead 0xFE00 u).1 = if (kbdAvail u).1 then 0x8000 else 0 :=
    fun u => congrArg Prod.fst (memRead_kbsr u)
  rw [hvalue, hvalue, kbdAvail_memWrite_answer]

/-! ### LDI -/

/-- Settles O23: LDI is the end of a load in the state that the pointer's read leaves, so its frame is that of the
first read followed by that of the load. -/
theorem loadIndirect : Obligations.LoadIndirect := by
  intro dr off s
  have hpa := memRead_effect (s.pc + sext off) s
  have hregs := memRead_sameRegs (s.pc + sext off) s
  have hcontrol := memRead_sameControl (s.pc + sext off) s
  have hconsole := memRead_sameConsole (s.pc + sext off) s
  have hpc := memRead_pc (s.pc + sext off) s
  have hplain : s.pc + sext off ≠ 0xFE00 → memRead (s.pc + sext off) s = (s.mem.readWord (s.pc + sext off), s) :=
    fun h => memRead_of_ne h s
  refine ⟨decode_ldi dr off, loadInto dr (memRead (s.pc + sext off) s).1 (memRead (s.pc + sext off) s).2, rfl, ?_⟩
  dsimp only
  generalize memRead (s.pc + sext off) s = p at *
  obtain ⟨hmem', hcontrol', hkeyboard', hconsole'⟩ := loadInto_sameRest_memRead dr p.1 p.2
  have heffect : ReadEffect p.1 p.2 (loadInto dr p.1 p.2) :=
    (memRead_effect p.1 p.2).trans_same hmem' hkeyboard'
  refine ⟨⟨readReg_loadInto_same dr p.1 p.2, loadInto_flagOf dr p.1 p.2, rfl, hkeyboard', heffect, fun h => ?_,
      fun k h0 h2 => (heffect.2 k h0 h2).trans (hpa.2 k h0 h2)⟩,
    hregs.trans_but (loadInto_sameRegsBut dr p.1 p.2), (loadInto_pc dr p.1 p.2).trans hpc,
    hcontrol.trans ((memRead_sameControl p.1 p.2).trans hcontrol'),
    hconsole.trans ((memRead_sameConsole p.1 p.2).trans hconsole')⟩
  rw [hplain h] at heffect ⊢
  exact ⟨rfl, heffect⟩

/-! ### Fetches -/

theorem fetch_of_ne {s : State} (h : s.pc ≠ Param.kbsr) : (fetch s).1 = s.mem.readWord s.pc := by
  rw [fetch_eq, memRead_of_ne h]

/-- A word stored at the address of the next instruction is fetched. -/
theorem fetch_memWrite_pc {a v : Word} {u : State} (hpc : u.pc = a) (ha : a ≠ Param.kbsr) :
    (fetch (memWrite a v u)).1 = v := by
  have hpc' : (memWrite a v u).pc = a := hpc
  rw [fetch_of_ne (hpc' ▸ ha), hpc', memWrite_readWord_same]

/-- Settles O29: each of the three is one store, and none moves `pc`. -/
theorem storeReachesNextFetch : Obligations.StoreReachesNextFetch := by
  refine fun sr base off off6 s t hpc => ⟨fun ha h => ?_, fun ha h => ?_, fun ha h => ?_⟩
  · obtain rfl := Host.Outcome.next.inj h
    exact fetch_memWrite_pc ha.symm (ha.trans_ne hpc)
  · rw [exec_sti, ha] at h
    obtain rfl := Host.Outcome.next.inj h
    exact fetch_memWrite_pc (memRead_pc _ s) hpc
  · obtain rfl := Host.Outcome.next.inj h
    exact fetch_memWrite_pc ha.symm (ha.trans_ne hpc)

/-- Settles O41: the poll's word is 0x0000, a BR that is never taken, or 0x8000, an RTI. -/
theorem fetchFromStatusAddress : Obligations.FetchFromStatusAddress := by
  intro s hrun hheld hpc
  have hfetch : fetch s = ((memRead Param.kbsr s).1, setPc 0xFE01 (memRead Param.kbsr s).2) := by
    rw [fetch_eq, hpc]
    rfl
  have hrti : ∀ u, exec (decode 0x8000) u = .next { u with fault := true, faultIr := 0x8000 } := fun _ => rfl
  rw [step_of_fetch hrun hheld, hfetch]
  refine ⟨fun ps hp => ?_, fun ps b bs hp hi => ?_⟩
  · rw [memRead_kbsr_of_no_key hp]
    exact ⟨_, neverTakenBranchIsNoOp 0x0000 (by decide) _, rfl, hrun.2,
      Memory.readWord_writeWord_same s.mem Param.kbsr 0, fun _ => rfl, rfl, rfl, ⟨rfl, rfl⟩,
      fun _ hk => Memory.readByte_writeWord_of_ne (a := Param.kbsr) s.mem hk 0⟩
  · rw [memRead_kbsr_of_key hp hi]
    exact ⟨_, hrti _, rfl, rfl, rfl, Memory.readWord_withKey_kbsr s.mem b, Memory.readWord_withKey_kbdr s.mem b, rfl,
      hrun.1, fun _ => rfl, rfl, ⟨rfl, rfl⟩, fun _ h0 h2 => Memory.readByte_withKey_of_ne s.mem b h0 h2⟩

end Sys2Proof.Machine
end

section
/-! PROOFS. GETC and IN (spec/44_trap.md R121, R124), with and without a byte pending. -/

namespace Sys2Proof.Machine

/-! ### The blocking read -/

theorem kbdRead_of_input {s : State} {b : Byte} {bs : List Byte} (h : s.input = b :: bs) :
    kbdRead s = (some b, { s with input := bs }) := by
  rw [kbdRead, h]

theorem kbdRead_of_no_input {s : State} (h : s.input = []) :
    kbdRead s = (if Config.kbdArrives s.draws then some (Config.kbdByte s.draws) else none,
      { s with draws := s.draws + 1 }) := by
  rw [kbdRead, h]

/-- R153: a byte that arrives during the read is read as if it had been pending. -/
theorem kbdRead_of_arrives {s : State} (hi : s.input = []) (ha : Config.kbdArrives s.draws = true) :
    kbdRead s = kbdRead { s with input := [Config.kbdByte s.draws], draws := s.draws + 1 } := by
  rw [kbdRead_of_no_input hi, kbdRead_of_input rfl, if_pos ha, ← hi]

/-! ### What the services do with its answer -/

/-- The state after GETC or IN with the byte `c`: `u` has what was read and emitted on the way. -/
def keyed (c : Byte) (u : State) : State := complete (putKey c (saveLink u))

theorem exec_trapGetc_of_key {s u : State} {c : Byte} (h : kbdRead s = (some c, u)) :
    exec .trapGetc s = .next (keyed c u) := by
  rw [exec, execTrapGetc, h]
  rfl

theorem exec_trapGetc_of_hold {s u : State} (h : kbdRead s = (none, u)) :
    exec .trapGetc s = .next (hold .getc u) := by
  rw [exec, execTrapGetc, h]

/-- The echo and the flush touch the console alone, so they can be thought of as made before the link's save. -/
theorem exec_trapIn_of_key {s u : State} {c : Byte} (h : kbdRead (promptOnce s) = (some c, u)) :
    exec .trapIn s = .next (keyed c (conFlush (conOut [c] u))) := by
  rw [exec, execTrapIn, h]
  rfl

theorem exec_trapIn_of_hold {s u : State} (h : kbdRead (promptOnce s) = (none, u)) :
    exec .trapIn s = .next (hold .input u) := by
  rw [exec, execTrapIn, h]

/-- The prompt is emitted unless the step was held after it (R124). -/
theorem promptOnce_eq (s : State) :
    promptOnce s =
      { s with output := s.output ++ (if s.held = some .input then [] else Config.inPrompt) } := by
  unfold promptOnce
  split
  · rw [List.append_nil]
  · rfl

/-- The link is the old `pc`, `x[0]` the byte, zero-extended, and the flags are those of `x[0]`. -/
theorem keyed_effect (c : Byte) (u : State) :
    readReg Param.link (keyed c u) = u.pc ∧ (readReg Param.trapArg (keyed c u)).toNat = c.toNat ∧
      FlagOf (readReg Param.trapArg (keyed c u)) (keyed c u).cond ∧
      ∀ r : Reg, r ≠ Param.trapArg → r ≠ Param.link → readReg r (keyed c u) = readReg r u := by
  have hkey : readReg Param.trapArg (keyed c u) = zext8 c := readReg_defineReg_same _ _ _
  have hcond : (keyed c u).cond = condOf (zext8 c) := defineReg_cond _ _ _
  refine ⟨?_, ?_, ?_, fun r harg hlink => ?_⟩
  · exact (readReg_defineReg_of_ne (by decide) _ _).trans (readReg_saveLink_link u)
  · rw [hkey, zext8, BitVec.toNat_setWidth_of_le (by decide)]
  · rw [hkey, hcond]
    exact condOf_flagOf _
  · exact (readReg_defineReg_of_ne harg _ _).trans (readReg_saveLink_of_ne hlink u)

/-! ### The two services -/

/-- Settles O30: the blocking read takes the first byte, and `keyed_effect` says what becomes of it. -/
theorem getcReturnsKey : Obligations.GetcReturnsKey := by
  intro ign b rest s hi
  obtain ⟨hlink, hkey, hflag, hregs⟩ := keyed_effect b { s with input := rest }
  exact ⟨decode_trap ign 0x20, _, exec_trapGetc_of_key (kbdRead_of_input hi), hlink, hkey, hflag, rfl, hregs, rfl,
    rfl, fun _ => rfl, rfl, rfl, ⟨rfl, rfl⟩, rfl, rfl, rfl⟩

/-- Settles O37: as O30, with the prompt, the echo and the flush on the console. -/
theorem inPromptsAndEchoes : Obligations.InPromptsAndEchoes := by
  intro ign b rest s hi
  have hread : kbdRead (promptOnce s) = (some b, { promptOnce s with input := rest }) := by
    rw [promptOnce_eq]
    exact kbdRead_of_input hi
  have hexec := exec_trapIn_of_key hread
  rw [promptOnce_eq] at hexec
  obtain ⟨hlink, hkey, hflag, hregs⟩ := keyed_effect b (conFlush (conOut [b]
    { s with
      input := rest, output := s.output ++ (if s.held = some .input then [] else Config.inPrompt) }))
  exact ⟨decode_trap ign 0x23, _, hexec, hlink, hkey, hflag, rfl, rfl, rfl, hregs, rfl, rfl, fun _ => rfl, rfl, rfl,
    rfl, rfl, rfl⟩

/-- Settles O31: both services depend on the blocking read alone, and IN's prompt comes before it. -/
theorem keyServiceAwaitsInput : Obligations.KeyServiceAwaitsInput := by
  intro s hi
  cases ha : Config.kbdArrives s.draws with
  | true =>
    refine ⟨?_, ?_⟩
    · rw [if_pos rfl, exec, execTrapGetc, kbdRead_of_arrives hi ha]
      rfl
    · have hread : kbdRead (promptOnce s) =
          kbdRead (promptOnce { s with input := [Config.kbdByte s.draws], draws := s.draws + 1 }) := by
        rw [promptOnce_eq, promptOnce_eq]
        exact kbdRead_of_arrives hi ha
      rw [if_pos rfl, exec, execTrapIn, hread]
      rfl
  | false =>
    have hnone : ∀ u : State, u.input = [] → u.draws = s.draws →
        kbdRead u = (none, { u with draws := u.draws + 1 }) := fun u hu hd => by
      rw [kbdRead_of_no_input hu, hd, ha]
      rfl
    rw [if_neg Bool.false_ne_true, if_neg Bool.false_ne_true]
    refine ⟨exec_trapGetc_of_hold (hnone s hi rfl), ?_⟩
    rw [exec_trapIn_of_hold (hnone (promptOnce s) (by rw [promptOnce_eq]; exact hi) (by rw [promptOnce_eq])),
      promptOnce_eq]
    rfl

end Sys2Proof.Machine
end

section
/-! PROOFS. What reads through the memory access layer, keyboard reads and emissions leave alone, said once for all
of them together. -/

namespace Sys2Proof.Machine

/-- `t` is `s` but for the two keyboard words, the keyboard and the console, of which input has been consumed from
the front only and output has only grown. -/
structure IoFrame (s t : State) : Prop where
  regs : t.regs = s.regs
  pc : t.pc = s.pc
  cond : t.cond = s.cond
  running : t.running = s.running
  fault : t.fault = s.fault
  faultIr : t.faultIr = s.faultIr
  held : t.held = s.held
  bytes : ∀ k : Nat, k / 2 ≠ Param.kbsr.toNat → k / 2 ≠ Param.kbdr.toNat → t.mem.readByte k = s.mem.readByte k
  wf : s.mem.wf → t.mem.wf
  input : ∃ used, s.input = used ++ t.input
  output : ∃ bs, t.output = s.output ++ bs

namespace IoFrame

theorem refl (s : State) : IoFrame s s where
  regs := rfl
  pc := rfl
  cond := rfl
  running := rfl
  fault := rfl
  faultIr := rfl
  held := rfl
  bytes _ _ _ := rfl
  wf := id
  input := ⟨[], rfl⟩
  output := ⟨[], (List.append_nil _).symm⟩

theorem trans {s t u : State} (h : IoFrame s t) (h' : IoFrame t u) : IoFrame s u where
  regs := h'.regs.trans h.regs
  pc := h'.pc.trans h.pc
  cond := h'.cond.trans h.cond
  running := h'.running.trans h.running
  fault := h'.fault.trans h.fault
  faultIr := h'.faultIr.trans h.faultIr
  held := h'.held.trans h.held
  bytes k h0 h2 := (h'.bytes k h0 h2).trans (h.bytes k h0 h2)
  wf hs := h'.wf (h.wf hs)
  input := by
    obtain ⟨used, hused⟩ := h.input
    obtain ⟨used', hused'⟩ := h'.input
    exact ⟨used ++ used', by rw [hused, hused', List.append_assoc]⟩
  output := by
    obtain ⟨bs, hbs⟩ := h.output
    obtain ⟨bs', hbs'⟩ := h'.output
    exact ⟨bs ++ bs', by rw [hbs', hbs, List.append_assoc]⟩

theorem sameRegs {s t : State} (h : IoFrame s t) : SameRegs s t := readReg_congr h.regs

theorem sameControl {s t : State} (h : IoFrame s t) : SameControl s t := ⟨h.running, h.fault, h.faultIr, h.held⟩

theorem memRead (a : Word) (s : State) : IoFrame s (memRead a s).2 where
  regs := memRead_regs a s
  pc := memRead_pc a s
  cond := memRead_cond a s
  running := memRead_running a s
  fault := memRead_fault a s
  faultIr := memRead_faultIr a s
  held := memRead_held a s
  bytes _ h0 h2 := memRead_readByte a s h0 h2
  wf hs := memRead_wf hs a
  input := memRead_input_suffix a s
  output := ⟨[], by rw [memRead_output, List.append_nil]⟩

theorem kbdRead (s : State) : IoFrame s (kbdRead s).2 where
  regs := kbdRead_regs s
  pc := kbdRead_pc s
  cond := kbdRead_cond s
  running := kbdRead_running s
  fault := kbdRead_fault s
  faultIr := kbdRead_faultIr s
  held := kbdRead_held s
  bytes _ _ _ := by rw [kbdRead_mem]
  wf hs := by rwa [kbdRead_mem]
  input := ⟨s.input.take 1, by rw [kbdRead_input, ← List.drop_one, List.take_append_drop]⟩
  output := ⟨[], by rw [kbdRead_output, List.append_nil]⟩

theorem conOut (bs : List Byte) (s : State) : IoFrame s (conOut bs s) :=
  { refl s with output := ⟨bs, rfl⟩ }

theorem conFlush (s : State) : IoFrame s (conFlush s) := { refl s with }

theorem layPolls (s : State) : IoFrame s (layPolls s) := { refl s with }

theorem promptOnce (s : State) : IoFrame s (promptOnce s) := by
  rw [promptOnce_eq]
  exact { refl s with output := ⟨_, rfl⟩ }

/-- The link's save undone: what follows it keeps everything else of the state before it. -/
theorem of_saveLink {s t : State} (h : IoFrame (saveLink s) t) : IoFrame s { t with regs := s.regs } :=
  { h with regs := rfl }

/-- How PUTS and PUTSP complete: what follows the link's save is reads, emissions and a flush. -/
theorem stringService {emit : Word → List Byte} {s t : State} (h : stringService emit s = .next t) :
    IoFrame (saveLink s) t ∧ t.flushed = t.output.length := by
  obtain ⟨u, hu, hkeeps⟩ | ⟨hstuck, _⟩ := stringService_cases emit s
  · obtain rfl := Host.Outcome.next.inj (hu.symm.trans h)
    have hframe := hkeeps (IoFrame (saveLink s)) (fun a v hv => hv.trans (memRead a v))
      (fun bs v hv => hv.trans (conOut bs v)) (fun v hv => hv.trans (layPolls v)) (refl _)
    exact ⟨hframe.trans (conFlush u), rfl⟩
  · rw [hstuck] at h
    cases h

end IoFrame

end Sys2Proof.Machine
end

section
/-! PROOFS. PUTS and PUTSP (spec/44_trap.md R123, R125, R128): a string away from `KBSR`, a whole pass with a key, the
loop over a memory without a zero word, and the frame of the services. -/

namespace Sys2Proof.Machine

/-! ### Words away from `KBSR` -/

/-- What the loop emits for the `n` words of a memory from `a` on. -/
def emitted (emit : Word → List Byte) (m : Memory) (a : Word) (n : Nat) : List Byte :=
  (List.range n).flatMap fun j => emit (m.readWord (a + BitVec.ofNat 16 j))

theorem emitted_succ (emit : Word → List Byte) (m : Memory) (a : Word) (n : Nat) :
    emitted emit m a (n + 1) = emitted emit m a n ++ emit (m.readWord (a + BitVec.ofNat 16 n)) := by
  simp [emitted, List.range_succ]

/-- One byte or more for each word. -/
theorem le_length_emitted {emit : Word → List Byte} (hemit : ∀ w, emit w ≠ []) (m : Memory) (a : Word) (n : Nat) :
    n ≤ (emitted emit m a n).length := by
  induction n with
  | zero => exact Nat.zero_le _
  | succ n ih =>
    have hpos := List.length_pos_iff.2 (hemit (m.readWord (a + BitVec.ofNat 16 n)))
    rw [emitted_succ, List.length_append]
    omega

/-- A part of a pass that meets neither `KBSR` nor a zero word emits its words and does nothing else. -/
theorem stringPass_of_ne {emit : Word → List Byte} {n : Nat} {a : Word} {s : State}
    (hword : ∀ j, j < n → s.mem.readWord (a + BitVec.ofNat 16 j) ≠ 0)
    (hkbsr : ∀ j, j < n → a + BitVec.ofNat 16 j ≠ Param.kbsr) :
    stringPass emit n a s = (false, conOut (emitted emit s.mem a n) s) := by
  induction n with
  | zero =>
    rw [stringPass, conOut]
    exact congrArg (fun out => (false, { s with output := out })) (List.append_nil s.output).symm
  | succ n ih =>
    have hfirst := ih (fun j hj => hword j (by omega)) fun j hj => hkbsr j (by omega)
    have hread := memRead_of_ne (hkbsr n (by omega)) (conOut (emitted emit s.mem a n) s)
    have hne : (memRead (a + BitVec.ofNat 16 n) (conOut (emitted emit s.mem a n) s)).1 ≠ 0 := by
      rw [hread]
      exact hword n (by omega)
    rw [stringPass_add, hfirst, if_neg Bool.false_ne_true, stringPass_cons hne, hread, stringPass, emitted_succ]
    simp only [conOut, List.append_assoc]

/-- A pass over a string that ends before it meets `KBSR`. -/
theorem stringPass_of_string {emit : Word → List Byte} {n : Nat} {a : Word} {s : State} (hn : n < passLength)
    (hword : ∀ j, j < n → s.mem.readWord (a + BitVec.ofNat 16 j) ≠ 0)
    (hzero : s.mem.readWord (a + BitVec.ofNat 16 n) = 0)
    (hkbsr : ∀ j, j ≤ n → a + BitVec.ofNat 16 j ≠ Param.kbsr) :
    stringPass emit passLength a s = (true, conOut (emitted emit s.mem a n) s) := by
  obtain ⟨k, hk⟩ : ∃ k, passLength = n + (k + 1) := ⟨passLength - n - 1, by omega⟩
  have hread := memRead_of_ne (hkbsr n (Nat.le_refl n)) (conOut (emitted emit s.mem a n) s)
  have hend : (memRead (a + BitVec.ofNat 16 n) (conOut (emitted emit s.mem a n) s)).1 = 0 := by
    rw [hread]
    exact hzero
  rw [hk, stringPass_add, stringPass_of_ne hword fun j hj => hkbsr j (by omega), if_neg Bool.false_ne_true,
    stringPass_zero hend, hread]

theorem stringService_of_first_pass {emit : Word → List Byte} {s t : State}
    (h : stringPass emit passLength (readReg Param.trapArg s) (saveLink s) = (true, t)) :
    stringService emit s = .next (conFlush t) := by
  rw [stringService, h]

/-- What PUTS and PUTSP do on a string that ends within one pass and does not meet `KBSR`: one output, as OUT's. -/
theorem stringService_of_string (emit : Word → List Byte) {n : Nat} {s : State} (hn : n < 0x10000)
    (hword : ∀ j, j < n → s.mem.readWord (readReg 0 s + BitVec.ofNat 16 j) ≠ 0)
    (hzero : s.mem.readWord (readReg 0 s + BitVec.ofNat 16 n) = 0)
    (hkbsr : ∀ j, j ≤ n → readReg 0 s + BitVec.ofNat 16 j ≠ 0xFE00) :
    stringService emit s = .next (conFlush (conOut (emitted emit s.mem (readReg 0 s) n) (saveLink s))) :=
  stringService_of_first_pass (stringPass_of_string (s := saveLink s) hn hword hzero hkbsr)

theorem emitted_puts (m : Memory) (a : Word) (n : Nat) :
    emitted putsBytes m a n =
      (List.range n).map fun j => (m.readWord (a + BitVec.ofNat 16 j)).extractLsb' 0 8 :=
  List.map_eq_flatMap.symm

/-- Settles O33: one low byte for each word of the string, emitted as OUT emits its byte. -/
theorem putsEmitsString : Obligations.PutsEmitsString := by
  intro ign n s hn hword hzero hkbsr
  obtain ⟨hlink, houtput, hflushed, hregs, hpc, hcond, hmem, hcontrol, hkeyboard⟩ :=
    linkedOutput_effect (bs := emitted putsBytes s.mem (readReg 0 s) n) (s := s) rfl
  exact ⟨decode_trap ign 0x22, _, stringService_of_string putsBytes hn hword hzero hkbsr, hlink,
    houtput.trans (congrArg (s.output ++ ·) (emitted_puts s.mem _ n)), hflushed, hregs, hpc, hcond, hmem, hkeyboard,
    hcontrol⟩

/-- Settles O34: as O33, with the bytes of PUTSP. -/
theorem putspEmitsPackedString : Obligations.PutspEmitsPackedString := by
  intro ign n s hn hword hzero hkbsr
  obtain ⟨hlink, houtput, hflushed, hregs, hpc, hcond, hmem, hcontrol, hkeyboard⟩ :=
    linkedOutput_effect (bs := emitted putspBytes s.mem (readReg 0 s) n) (s := s) rfl
  exact ⟨decode_trap ign 0x24, _, stringService_of_string putspBytes hn hword hzero hkbsr, hlink, houtput, hflushed,
    hregs, hpc, hcond, hmem, hkeyboard, hcontrol⟩

/-! ### The frame -/

/-- PUTS and PUTSP are one service with two ways to emit. -/
theorem exec_of_mem_stringServices {i : Instr} (hi : i ∈ [Instr.trapPuts, .trapPutsp]) :
    ∃ emit ∈ [putsBytes, putspBytes], ∀ s, exec i s = stringService emit s := by
  rcases List.mem_pair.1 hi with rfl | rfl
  · exact ⟨putsBytes, List.mem_cons_self, fun _ => rfl⟩
  · exact ⟨putspBytes, List.mem_cons_of_mem _ List.mem_cons_self, fun _ => rfl⟩

/-- Settles O35: `stringService_cases` says how the service ends; a state it completes in is in the I/O frame of the
link's save. -/
theorem stringServiceFrame : Obligations.StringServiceFrame := by
  intro i s hi
  obtain ⟨emit, _, hexec⟩ := exec_of_mem_stringServices hi
  rw [hexec]
  rcases stringService_cases emit s with ⟨u, hnext, _⟩ | hstuck
  · obtain ⟨hframe, hflushed⟩ := IoFrame.stringService hnext
    have hlink := (hframe.sameRegs Param.link).trans (readReg_saveLink_link s)
    exact .inl ⟨_, hnext, hlink, fun r hr => (hframe.sameRegs r).trans (readReg_saveLink_of_ne hr s), hframe.pc,
      hframe.cond, hframe.output, hflushed, hframe.input, hframe.bytes, hframe.sameControl⟩
  · exact .inr hstuck

/-! ### A whole pass with a key -/

/-- No word but the status word is zero. -/
def NoZeroWord (m : Memory) : Prop := ∀ a : Word, a ≠ Param.kbsr → m.readWord a ≠ 0

theorem zext8_ne_zero {b : Byte} (h : b ≠ 0) : zext8 b ≠ 0 := fun hz => by
  have hnat : (zext8 b).toNat = b.toNat := BitVec.toNat_setWidth_of_le (by decide)
  rw [hz] at hnat
  exact h (BitVec.eq_of_toNat_eq hnat.symm)

theorem NoZeroWord.withKey {m : Memory} (h : NoZeroWord m) {b : Byte} (hb : b ≠ 0) : NoZeroWord (m.withKey b) := by
  intro a ha
  by_cases hkbdr : a = Param.kbdr
  · rw [hkbdr, Memory.readWord_withKey_kbdr]
    exact zext8_ne_zero hb
  · rw [Memory.readWord_withKey_of_ne m b ha hkbdr]
    exact h a ha

/-- A whole pass over words that are not zero, with a key whose byte is not 0 at its one poll: it finds no zero word
and leaves none, takes the poll and the byte, and emits one byte or more for each word. -/
theorem stringPass_whole_of_key {emit : Word → List Byte} (hemit : ∀ w, emit w ≠ []) (a : Word) {s : State}
    {ps : List Bool} {b : Byte} {bs : List Byte} (hwords : NoZeroWord s.mem) (hp : s.polls = true :: ps)
    (hi : s.input = b :: bs) (hb : b ≠ 0) :
    ∃ t, stringPass emit passLength a s = (false, t) ∧ NoZeroWord t.mem ∧ t.polls = ps ∧ t.input = bs ∧
      t.draws = s.draws ∧ s.output.length + 0x10000 ≤ t.output.length := by
  obtain ⟨hd, hkbsr, honce⟩ := kbsr_index a
  generalize (Param.kbsr - a).toNat = d at hd hkbsr honce
  obtain ⟨k, hk⟩ : ∃ k, passLength = d + (k + 1) := ⟨passLength - d - 1, by omega⟩
  have hbefore : ∀ j, j < d → a + BitVec.ofNat 16 j ≠ Param.kbsr := fun j hj e => by
    have := honce j (by omega) e
    omega
  have hafter : ∀ j, j < k → Param.kbsr + 1 + BitVec.ofNat 16 j ≠ Param.kbsr := fun j hj e => by
    have hshift : a + BitVec.ofNat 16 (d + (j + 1)) = Param.kbsr + 1 + BitVec.ofNat 16 j := by
      rw [← hkbsr, BitVec.ofNat_add, Nat.add_comm j 1, BitVec.ofNat_add, BitVec.add_assoc, BitVec.add_assoc]
      rfl
    have := honce (d + (j + 1)) (by omega) (hshift.trans e)
    omega
  have hread := memRead_kbsr_of_key (s := conOut (emitted emit s.mem a d) s) hp hi
  have hne : (memRead Param.kbsr (conOut (emitted emit s.mem a d) s)).1 ≠ 0 := by
    rw [hread]
    exact (by decide : (0x8000 : Word) ≠ 0)
  have hwords' := hwords.withKey hb
  have hlast : ∀ u : State, u.mem = s.mem.withKey b → stringPass emit k (Param.kbsr + 1) u =
      (false, conOut (emitted emit (s.mem.withKey b) (Param.kbsr + 1) k) u) := fun u hu => by
    rw [← hu] at hwords' ⊢
    exact stringPass_of_ne (fun j hj => hwords' _ (hafter j hj)) hafter
  rw [hk, stringPass_add, stringPass_of_ne (fun j hj => hwords _ (hbefore j hj)) hbefore,
    if_neg Bool.false_ne_true, hkbsr, stringPass_cons hne, hread, hlast _ rfl]
  refine ⟨_, rfl, hwords', rfl, rfl, rfl, ?_⟩
  have hlen := le_length_emitted hemit s.mem a d
  have hlen' := le_length_emitted hemit (s.mem.withKey b) (Param.kbsr + 1) k
  have hpos := List.length_pos_iff.2 (hemit 0x8000)
  have hpass : 0x10000 = d + (k + 1) := hk
  simp only [conOut_output, List.length_append]
  omega

/-! ### The loop with keys -/

/-- The environment has laid down keys with bytes other than 0 for the next `m` polls, and no word but the status
word is zero. -/
structure KeysFor (m : Nat) (s : State) : Prop where
  words : NoZeroWord s.mem
  polls : ∃ ps, s.polls = List.replicate m true ++ ps
  input : ∃ ks bs, s.input = ks ++ bs ∧ ks.length = m ∧ ∀ b ∈ ks, b ≠ 0

/-- Where all polls laid down find keys and no byte pending is 0. -/
theorem KeysFor.of_all {m : Nat} {s : State} (hwords : NoZeroWord s.mem) (hp : ∀ p ∈ s.polls, p = true)
    (hi : ∀ b ∈ s.input, b ≠ 0) (hmp : m ≤ s.polls.length) (hmi : m ≤ s.input.length) : KeysFor m s where
  words := hwords
  polls := by
    refine ⟨s.polls.drop m, ?_⟩
    rw [← List.eq_replicate_iff.2 ⟨List.length_take_of_le hmp, fun p h => hp p (List.mem_of_mem_take h)⟩,
      List.take_append_drop]
  input := ⟨s.input.take m, s.input.drop m, (List.take_append_drop m s.input).symm, List.length_take_of_le hmi,
    fun b h => hi b (List.mem_of_mem_take h)⟩

/-- One pass takes the first of the keys. -/
theorem KeysFor.pass {emit : Word → List Byte} (hemit : ∀ w, emit w ≠ []) (a : Word) {m : Nat} {s : State}
    (h : KeysFor (m + 1) s) :
    ∃ t, stringPass emit passLength a s = (false, t) ∧ KeysFor m t ∧
      s.output.length + 0x10000 ≤ t.output.length := by
  obtain ⟨ps, hp⟩ := h.polls
  obtain ⟨ks, bs, hi, hlen, hne⟩ := h.input
  match ks, hlen with
  | b :: ks, hlen =>
    have hb : b ≠ 0 := hne b List.mem_cons_self
    obtain ⟨t, hpass, hwords, hpolls, hinput, _, hout⟩ := stringPass_whole_of_key hemit a h.words hp hi hb
    exact ⟨t, hpass, ⟨hwords, ⟨ps, hpolls⟩, ⟨ks, bs, hinput, Nat.succ.inj hlen,
      fun c hc => hne c (List.mem_cons_of_mem b hc)⟩⟩, hout⟩

/-- As many passes as there are keys find no zero word. -/
theorem stringPasses_of_keysFor {emit : Word → List Byte} (hemit : ∀ w, emit w ≠ []) (a : Word) {m : Nat}
    {s : State} (h : KeysFor m s) : (stringPasses emit m a s).1 = false := by
  induction m generalizing s with
  | zero =>
    have hbefore : ∀ j, j < (Param.kbsr - a).toNat → a + BitVec.ofNat 16 j ≠ Param.kbsr := fun j hj e => by
      obtain ⟨hd, _, honce⟩ := kbsr_index a
      have := honce j (by omega) e
      omega
    rw [stringPasses_zero, stringPass_of_ne (fun j hj => h.words _ (hbefore j hj)) hbefore]
  | succ m ih =>
    obtain ⟨t, hpass, ht, _⟩ := h.pass hemit a
    rw [stringPasses_succ, hpass]
    exact ih ht

/-- What the loop keeps of a state, the console's growth among it. -/
theorem IoFrame.stringPasses (emit : Word → List Byte) (n : Nat) (a : Word) (s : State) :
    IoFrame s (stringPasses emit n a s).2 :=
  stringPasses_keeps emit (fun b _ h => h.trans (.memRead b _)) (fun bs _ h => h.trans (.conOut bs _)) n a s
    (.refl s)

/-- Each pass with a key emits 65,536 bytes or more, and no later pass takes them back. -/
theorem stringPasses_output_of_keysFor {emit : Word → List Byte} (hemit : ∀ w, emit w ≠ []) (a : Word) (n : Nat)
    {m : Nat} {s : State} (h : KeysFor m s) :
    s.output.length + m * 0x10000 ≤ (stringPasses emit (m + n) a s).2.output.length := by
  induction m generalizing s with
  | zero =>
    obtain ⟨bs, hbs⟩ := (IoFrame.stringPasses emit (0 + n) a s).output
    rw [hbs, List.length_append]
    omega
  | succ m ih =>
    obtain ⟨t, hpass, ht, hout⟩ := h.pass hemit a
    have hrest := ih ht
    rw [Nat.add_right_comm, stringPasses_succ, hpass]
    simp only [Bool.false_eq_true, if_false]
    omega

/-- Both services emit the low byte always. -/
theorem emit_ne_nil {emit : Word → List Byte} (h : emit ∈ [putsBytes, putspBytes]) (w : Word) : emit w ≠ [] := by
  rcases List.mem_pair.1 h with rfl | rfl
  · exact List.cons_ne_nil _ _
  · exact List.cons_ne_nil _ _

/-- Settles O60: keys are laid down for all of the passes, so `KeysFor` holds, and the loop keeps the I/O
frame. -/
theorem stringLoopEmitsWithoutBound : Obligations.StringLoopEmitsWithoutBound := by
  intro emit n a s hemit hwords hp hi hnp hni
  have hkeys := KeysFor.of_all (s := s) hwords hp hi hnp hni
  have hframe := IoFrame.stringPasses emit n a s
  exact ⟨stringPasses_of_keysFor (emit_ne_nil hemit) a hkeys,
    stringPasses_output_of_keysFor (emit_ne_nil hemit) a 0 hkeys, hframe.running, hframe.fault⟩

/-! ### The services after a first pass without a zero word -/

section
variable {emit : Word → List Byte} {s t : State}
  (hfirst : stringPass emit passLength (readReg Param.trapArg s) (saveLink s) = (false, t))
include hfirst

theorem stringService_of_loop_ends
    (hloop : (stringPasses emit (layPolls t).polls.length (readReg Param.trapArg s) (layPolls t)).1 = true) :
    stringService emit s = .next (conFlush
      (stringPasses emit (layPolls t).polls.length (readReg Param.trapArg s) (layPolls t)).2) := by
  rw [stringService, hfirst]
  dsimp only
  generalize stringPasses emit (layPolls t).polls.length (readReg Param.trapArg s) (layPolls t) = r at *
  obtain ⟨found, u⟩ := r
  obtain rfl : found = true := hloop
  rfl

theorem stringService_of_loop_goes_on
    (hloop : (stringPasses emit (layPolls t).polls.length (readReg Param.trapArg s) (layPolls t)).1 = false) :
    stringService emit s = .fault .stringNeverEnds := by
  rw [stringService, hfirst]
  dsimp only
  generalize stringPasses emit (layPolls t).polls.length (readReg Param.trapArg s) (layPolls t) = r at *
  obtain ⟨found, u⟩ := r
  obtain rfl : found = false := hloop
  rfl

end

theorem layPolls_polls_of_never {s : State} (h : Config.kbdRun s.draws = none) :
    (layPolls s).polls = s.polls ++ List.replicate (s.input.length - s.polls.length) true := by
  simp only [layPolls, h]

theorem layPolls_polls_of_run {s : State} {k : Nat} (h : Config.kbdRun s.draws = some k) :
    (layPolls s).polls = s.polls ++ (List.replicate k true ++ [false]) := by
  simp only [layPolls, h]

/-- A run of keys that ends ends the loop: the poll that finds none is among those it goes through. -/
theorem stringPasses_layPolls_of_run {emit : Word → List Byte} {a : Word} {s : State} {k : Nat}
    (h : Config.kbdRun s.draws = some k) :
    (stringPasses emit (layPolls s).polls.length a (layPolls s)).1 = true := by
  by_contra hend
  have hall := stringPasses_polls emit _ a (layPolls s) rfl (Bool.eq_false_of_not_eq_true hend)
  have hlast : false ∈ (layPolls s).polls := by simp [layPolls_polls_of_run h]
  exact absurd (hall false hlast) Bool.false_ne_true

/-- Keys laid down stay where the environment lays down more. -/
theorem KeysFor.layPolls {m : Nat} {s : State} (h : KeysFor m s) : KeysFor m (layPolls s) where
  words := h.words
  polls := by
    obtain ⟨ps, hps⟩ := h.polls
    exact ⟨ps ++ _, (congrArg (· ++ _) hps).trans (List.append_assoc _ _ _)⟩
  input := h.input

/-- Every poll laid down finds a key, a byte other than 0 is pending for each, and no word but the status word is
zero. -/
structure AllKeys (s : State) : Prop where
  words : NoZeroWord s.mem
  polls : ∀ p ∈ s.polls, p = true
  input : ∀ b ∈ s.input, b ≠ 0
  enough : s.polls.length ≤ s.input.length

namespace AllKeys

theorem keysFor {s : State} (h : AllKeys s) : KeysFor s.polls.length s :=
  .of_all h.words h.polls h.input (Nat.le_refl _) h.enough

/-- A first pass takes the first key, and the rest stay. -/
theorem pass {emit : Word → List Byte} (hemit : ∀ w, emit w ≠ []) (a : Word) {s : State} (h : AllKeys s)
    (hne : s.polls ≠ []) :
    ∃ t, stringPass emit passLength a s = (false, t) ∧ AllKeys t ∧ s.polls.length = t.polls.length + 1 ∧
      t.draws = s.draws ∧ s.output.length + 0x10000 ≤ t.output.length := by
  obtain ⟨hwords, hpolls, hinput, henough⟩ := h
  obtain ⟨p, ps, hp⟩ := List.exists_cons_of_ne_nil hne
  have hpos : 0 < s.input.length := Nat.lt_of_lt_of_le (List.length_pos_iff.2 hne) henough
  obtain ⟨b, bs, hb⟩ := List.exists_cons_of_length_pos hpos
  rw [hp, hb, List.length_cons, List.length_cons] at henough
  rw [hp, List.forall_mem_cons] at hpolls
  rw [hb, List.forall_mem_cons] at hinput
  obtain ⟨t, hpass, htwords, htpolls, htinput, hdraws, hout⟩ :=
    stringPass_whole_of_key hemit a hwords (hpolls.1 ▸ hp) hb hinput.1
  exact ⟨t, hpass, ⟨htwords, htpolls ▸ hpolls.2, htinput ▸ hinput.2,
    htpolls ▸ htinput ▸ Nat.le_of_succ_le_succ henough⟩, by rw [hp, htpolls, List.length_cons], hdraws, hout⟩

/-- With a key ready for ever, as many polls as there are bytes are laid down, and all of them find one. -/
theorem layPolls_of_never {s : State} (h : AllKeys s) (hrun : Config.kbdRun s.draws = none) :
    AllKeys (layPolls s) := by
  have hlaid := layPolls_polls_of_never hrun
  refine ⟨h.words, ?_, h.input, ?_⟩
  · rw [hlaid]
    exact fun p hp => (List.mem_append.1 hp).elim (h.polls p) List.eq_of_mem_replicate
  · have henough := h.enough
    rw [hlaid, layPolls_input, List.length_append, List.length_replicate]
    omega

end AllKeys

/-- Settles O36: a first pass takes the first key. With a key ready for ever the loop then goes through the polls
laid down without a zero word; with a run of keys that ends it ends, after a pass for each of the keys that were
laid down before. -/
theorem stringWithoutZeroWordNeverEnds : Obligations.StringWithoutZeroWordNeverEnds := by
  intro i s hi hwords hne hpolls hinput henough
  obtain ⟨emit, hmem, hexec⟩ := exec_of_mem_stringServices hi
  have hemit := emit_ne_nil hmem
  have hall : AllKeys (saveLink s) := ⟨hwords, hpolls, hinput, henough⟩
  obtain ⟨t, hfirst, ht, hlength, hdraws, hout⟩ := hall.pass hemit (readReg Param.trapArg s) hne
  rw [saveLink_draws] at hdraws
  rw [saveLink_polls] at hlength
  rw [saveLink_output] at hout
  rw [hexec, ← hdraws]
  refine ⟨fun hrun => stringService_of_loop_goes_on hfirst ?_, fun k hrun =>
    ⟨_, stringService_of_loop_ends hfirst (stringPasses_layPolls_of_run hrun), ?_⟩⟩
  · exact stringPasses_of_keysFor hemit _ (ht.layPolls_of_never hrun).keysFor
  · have hlaid : (layPolls t).polls.length = t.polls.length + (k + 1) := by
      rw [layPolls_polls_of_run hrun, List.length_append, List.length_append, List.length_replicate,
        List.length_singleton]
    have hrest := stringPasses_output_of_keysFor hemit (readReg Param.trapArg s) (k + 1) ht.keysFor.layPolls
    rw [layPolls_output] at hrest
    rw [hlaid, hlength, conFlush_output]
    omega

end Sys2Proof.Machine
end

section
/-! PROOFS. What an instruction can do, said once, and the rules of the whole machine that follow from it
(spec/10_state.md R17, R18; spec/40_execution_cycle.md R74; spec/50_interfaces.md R155). -/

namespace Sys2Proof.Machine

/-! ### The effects -/

/-- What `i` can do to `s`: its last writes, in a state `u` that reads and emissions have left, or that the link's
save has. -/
inductive Effect (i : Instr) (s : State) : State → Prop
  | transfer (hi : i.opcode ∈ [Opcode.br, .jmp, .jsr]) (hsource : flagSource i = none) (p : Word) {u : State}
      (hu : u = s ∨ u = saveLink s) : Effect i s (setPc p u)
  | define {d : Reg} (hi : i.opcode ∈ [Opcode.add, .and, .not, .ld, .ldi, .ldr, .lea])
      (hsource : flagSource i = some d) (v : Word) {u : State} (hframe : IoFrame s u)
      (hconsole : SameConsole s u) : Effect i s (defineReg d v u)
  | store (hi : i.opcode ∈ [Opcode.st, .sti, .str]) (hsource : flagSource i = none) (a v : Word) {u : State}
      (hframe : IoFrame s u) (hconsole : SameConsole s u) : Effect i s (memWrite a v u)
  | reserved (hi : i.opcode = .rti ∨ i.opcode = .res) (hsource : flagSource i = none) :
      Effect i s (raiseReservedOpcode (encode i) s)
  | held {h : Held} (hi : i = heldInstr h) {u : State} (hframe : IoFrame s u)
      (hconsole : h = .getc → SameConsole s u) : Effect i s (hold h u)
  | key {h : Held} (hi : i = heldInstr h) (c : Byte) {u : State} (hframe : IoFrame s u)
      (hconsole : h = .getc → SameConsole s u) : Effect i s (keyed c u)
  | output (hi : i ∈ [Instr.trapOut, .trapPuts, .trapPutsp]) (hsource : flagSource i = none) {t : State}
      (hframe : IoFrame (saveLink s) t) : Effect i s t
  | noService {v : BitVec 8} (hi : i = .trapOther v) : Effect i s (saveLink s)
  | halt (hi : i = .trapHalt) {u : State} (hframe : IoFrame (saveLink s) u) :
      Effect i s { u with running := false }

theorem kbdRead_sameConsole (s : State) : SameConsole s (kbdRead s).2 := ⟨kbdRead_output s, kbdRead_flushed s⟩

theorem SameConsole.refl (s : State) : SameConsole s s := ⟨rfl, rfl⟩

theorem trapGetc_effect {s t : State} (h : exec .trapGetc s = .next t) : Effect .trapGetc s t := by
  have hframe := IoFrame.kbdRead s
  have hconsole := kbdRead_sameConsole s
  cases hread : kbdRead s with
  | mk answer u =>
    rw [hread] at hframe hconsole
    cases answer with
    | none =>
      obtain rfl := Host.Outcome.next.inj ((exec_trapGetc_of_hold hread).symm.trans h)
      exact .held (h := .getc) rfl hframe fun _ => hconsole
    | some c =>
      obtain rfl := Host.Outcome.next.inj ((exec_trapGetc_of_key hread).symm.trans h)
      exact .key (h := .getc) rfl c hframe fun _ => hconsole

theorem trapIn_effect {s t : State} (h : exec .trapIn s = .next t) : Effect .trapIn s t := by
  have hframe := (IoFrame.promptOnce s).trans (.kbdRead (promptOnce s))
  cases hread : kbdRead (promptOnce s) with
  | mk answer u =>
    rw [hread] at hframe
    cases answer with
    | none =>
      obtain rfl := Host.Outcome.next.inj ((exec_trapIn_of_hold hread).symm.trans h)
      exact .held (h := .input) rfl hframe nofun
    | some c =>
      obtain rfl := Host.Outcome.next.inj ((exec_trapIn_of_key hread).symm.trans h)
      exact .key (h := .input) rfl c ((hframe.trans (.conOut [c] u)).trans (.conFlush _)) nofun

/-- An instruction that answers a next state has one of the effects. -/
theorem exec_effect {i : Instr} {s t : State} (h : exec i s = .next t) : Effect i s t := by
  have hread : ∀ a u, IoFrame s u → SameConsole s u →
      IoFrame s (memRead a u).2 ∧ SameConsole s (memRead a u).2 := fun a u hframe hconsole =>
    ⟨hframe.trans (.memRead a u), hconsole.trans (memRead_sameConsole a u)⟩
  have hload := fun a => hread a s (.refl s) (.refl s)
  cases i with
  | br nzp off =>
    obtain rfl := Host.Outcome.next.inj ((exec_br nzp off s).symm.trans h)
    exact .transfer (by simp [Instr.opcode]) rfl _ (.inl rfl)
  | jmp =>
    obtain rfl := Host.Outcome.next.inj h
    exact .transfer (by simp [Instr.opcode]) rfl _ (.inl rfl)
  | jsr | jsrr =>
    obtain rfl := Host.Outcome.next.inj h
    exact .transfer (by simp [Instr.opcode]) rfl _ (.inr rfl)
  | add | addImm | and | andImm | not | lea =>
    obtain rfl := Host.Outcome.next.inj h
    exact .define (by simp [Instr.opcode]) rfl _ (.refl s) (.refl s)
  | ld | ldr =>
    obtain rfl := Host.Outcome.next.inj h
    exact .define (by simp [Instr.opcode]) rfl _ (hload _).1 (hload _).2
  | ldi =>
    obtain rfl := Host.Outcome.next.inj h
    obtain ⟨hframe, hconsole⟩ := hread (pointer _ s).1 _ (hload _).1 (hload _).2
    exact .define (by simp [Instr.opcode]) rfl _ hframe hconsole
  | st | str =>
    obtain rfl := Host.Outcome.next.inj h
    exact .store (by simp [Instr.opcode]) rfl _ _ (.refl s) (.refl s)
  | sti =>
    obtain rfl := Host.Outcome.next.inj h
    exact .store (by simp [Instr.opcode]) rfl _ _ (hload _).1 (hload _).2
  | rti =>
    obtain rfl := Host.Outcome.next.inj h
    exact .reserved (.inl rfl) rfl
  | res =>
    obtain rfl := Host.Outcome.next.inj h
    exact .reserved (.inr rfl) rfl
  | trapGetc => exact trapGetc_effect h
  | trapIn => exact trapIn_effect h
  | trapOut =>
    obtain rfl := Host.Outcome.next.inj h
    exact .output (by decide) rfl ((IoFrame.conOut _ _).trans (.conFlush _))
  | trapPuts | trapPutsp => exact .output (by decide) rfl (IoFrame.stringService h).1
  | trapHalt =>
    obtain rfl := Host.Outcome.next.inj h
    exact .halt rfl ((IoFrame.conOut _ _).trans (.conFlush _))
  | trapOther v =>
    obtain rfl := Host.Outcome.next.inj h
    exact .noService rfl

/-! ### The rules of single fields -/

theorem heldInstr_mem (h : Held) : heldInstr h ∈ [Instr.trapGetc, .trapIn] := by
  cases h <;> decide

/-- Opcodes of instructions that are neither HALT nor reserved. -/
theorem ordinary_of_opcode_mem {i : Instr} {os : List Opcode} (h : i.opcode ∈ os)
    (hos : ∀ o ∈ os, o ≠ .trap ∧ o ≠ .rti ∧ o ≠ .res) :
    i ≠ .trapHalt ∧ ¬(i.opcode = .rti ∨ i.opcode = .res) := by
  obtain ⟨htrap, hrti, hres⟩ := hos i.opcode h
  exact ⟨fun hi => htrap (by rw [hi]; rfl), fun hi => hi.elim hrti hres⟩

theorem ordinary_heldInstr {i : Instr} {h : Held} (hi : i = heldInstr h) :
    i ≠ .trapHalt ∧ ¬(i.opcode = .rti ∨ i.opcode = .res) := by
  subst hi
  cases h <;> decide

theorem flagSource_heldInstr (h : Held) : flagSource (heldInstr h) = some Param.trapArg := by
  cases h <;> rfl

section
variable {i : Instr} {s t : State} (h : Effect i s t)
include h

/-- An instruction without a source of flags keeps them, and one with a source sets them from it, unless it holds. -/
theorem Effect.cond :
    (flagSource i = none ∧ t.cond = s.cond) ∨
      (∃ d, flagSource i = some d ∧ FlagOf (readReg d t) t.cond) ∨
      (flagSource i ≠ none ∧ i ∈ [Instr.trapGetc, .trapIn] ∧ t.held ≠ none ∧ t.cond = s.cond) := by
  cases h with
  | transfer _ hsource _ hu => rcases hu with rfl | rfl <;> exact .inl ⟨hsource, rfl⟩
  | define _ hsource v =>
    refine .inr (.inl ⟨_, hsource, ?_⟩)
    rw [readReg_defineReg_same, defineReg_cond]
    exact condOf_flagOf v
  | store _ hsource _ _ hframe => exact .inl ⟨hsource, hframe.cond⟩
  | reserved _ hsource => exact .inl ⟨hsource, rfl⟩
  | held hi hframe =>
    subst hi
    exact .inr (.inr ⟨by rw [flagSource_heldInstr]; nofun, heldInstr_mem _, nofun, hframe.cond⟩)
  | @key k hi c u =>
    obtain ⟨_, _, hflag, _⟩ := keyed_effect c u
    exact .inr (.inl ⟨_, by rw [hi, flagSource_heldInstr], hflag⟩)
  | output _ hsource hframe => exact .inl ⟨hsource, hframe.cond⟩
  | noService hi => exact .inl ⟨by rw [hi]; rfl, rfl⟩
  | halt hi hframe => exact .inl ⟨by rw [hi]; rfl, hframe.cond⟩

/-- Only transfers move `pc`, but that a hold undoes the increment. -/
theorem Effect.pc :
    i.opcode ∈ [Opcode.br, .jmp, .jsr] ∨ t.pc = s.pc ∨
      (i ∈ [Instr.trapGetc, .trapIn] ∧ t.held ≠ none ∧ t.pc = s.pc - 1) := by
  cases h with
  | transfer hi => exact .inl hi
  | define _ _ _ hframe => exact .inr (.inl hframe.pc)
  | store _ _ _ _ hframe => exact .inr (.inl hframe.pc)
  | reserved => exact .inr (.inl rfl)
  | held hi hframe =>
    subst hi
    exact .inr (.inr ⟨heldInstr_mem _, nofun, congrArg (· - 1) hframe.pc⟩)
  | key _ _ hframe => exact .inr (.inl hframe.pc)
  | output _ _ hframe => exact .inr (.inl hframe.pc)
  | noService => exact .inr (.inl rfl)
  | halt _ hframe => exact .inr (.inl hframe.pc)

theorem Effect.sameConsole (hi : i ∉ [Instr.trapOut, .trapPuts, .trapIn, .trapPutsp, .trapHalt]) :
    SameConsole s t := by
  have hgetc : ∀ {k : Held}, i = heldInstr k → k = .getc := by
    rintro (_ | _) rfl
    · rfl
    · exact absurd (by decide) hi
  cases h with
  | transfer _ _ _ hu => rcases hu with rfl | rfl <;> exact ⟨rfl, rfl⟩
  | define _ _ _ _ hconsole => exact hconsole
  | store _ _ _ _ _ hconsole => exact hconsole
  | reserved => exact .refl s
  | held hk _ hconsole => exact hconsole (hgetc hk)
  | key hk _ _ hconsole => exact hconsole (hgetc hk)
  | output hi' =>
    exact absurd ((by decide : ∀ j ∈ [Instr.trapOut, .trapPuts, .trapPutsp],
      j ∈ [Instr.trapOut, .trapPuts, .trapIn, .trapPutsp, .trapHalt]) i hi') hi
  | noService => exact .refl s
  | halt hi' => exact absurd (by rw [hi']; decide) hi

/-- Reads and emissions aside, only stores write memory, and nothing touches the two streams. -/
theorem Effect.streams_and_memory :
    ∃ u, IoFrame s u ∧ t.input = u.input ∧ t.output = u.output ∧
      (t.mem = u.mem ∨ (i.opcode ∈ [Opcode.st, .sti, .str] ∧ ∃ a v, t.mem = u.mem.writeWord a v)) := by
  cases h with
  | transfer _ _ _ hu => rcases hu with rfl | rfl <;> exact ⟨_, .refl _, rfl, rfl, .inl rfl⟩
  | define _ _ _ hframe => exact ⟨_, hframe, rfl, rfl, .inl rfl⟩
  | store hi _ a v hframe => exact ⟨_, hframe, rfl, rfl, .inr ⟨hi, a, v, rfl⟩⟩
  | reserved => exact ⟨s, .refl s, rfl, rfl, .inl rfl⟩
  | held _ hframe => exact ⟨_, hframe, rfl, rfl, .inl rfl⟩
  | key _ _ hframe => exact ⟨_, hframe, rfl, rfl, .inl rfl⟩
  | output _ _ hframe => exact ⟨_, hframe.of_saveLink, rfl, rfl, .inl rfl⟩
  | noService => exact ⟨s, .refl s, rfl, rfl, .inl rfl⟩
  | halt _ hframe => exact ⟨_, hframe.of_saveLink, rfl, rfl, .inl rfl⟩

theorem Effect.input : ∃ used, s.input = used ++ t.input := by
  obtain ⟨u, hframe, hinput, _⟩ := h.streams_and_memory
  exact hinput ▸ hframe.input

theorem Effect.output_grows : ∃ bs, t.output = s.output ++ bs := by
  obtain ⟨u, hframe, _, houtput, _⟩ := h.streams_and_memory
  exact houtput ▸ hframe.output

theorem Effect.bytes (hi : i.opcode ∉ [Opcode.st, .sti, .str]) {k : Nat} (h0 : k / 2 ≠ Param.kbsr.toNat)
    (h2 : k / 2 ≠ Param.kbdr.toNat) : t.mem.readByte k = s.mem.readByte k := by
  obtain ⟨u, hframe, _, _, hmem | ⟨hstore, _⟩⟩ := h.streams_and_memory
  · exact hmem ▸ hframe.bytes k h0 h2
  · exact absurd hstore hi

theorem Effect.wf (hs : s.mem.wf) : t.mem.wf := by
  obtain ⟨u, hframe, _, _, hmem | ⟨_, a, v, hmem⟩⟩ := h.streams_and_memory
  · exact hmem ▸ hframe.wf hs
  · exact hmem ▸ Memory.wf_writeWord (hframe.wf hs) a v

/-- Only HALT clears `running`, only RTI and RES set `fault`, and none of the three holds a step. -/
theorem Effect.status :
    (i = .trapHalt ∧ t.running = false ∧ t.fault = s.fault ∧ t.held = s.held) ∨
      ((i.opcode = .rti ∨ i.opcode = .res) ∧ t.running = s.running ∧ t.fault = true ∧ t.faultIr = encode i ∧
        t.held = s.held) ∨
      (i ≠ .trapHalt ∧ ¬(i.opcode = .rti ∨ i.opcode = .res) ∧ t.running = s.running ∧ t.fault = s.fault) := by
  cases h with
  | transfer hi _ _ hu =>
    obtain ⟨hhalt, hreserved⟩ := ordinary_of_opcode_mem hi (by decide)
    rcases hu with rfl | rfl <;> exact .inr (.inr ⟨hhalt, hreserved, rfl, rfl⟩)
  | define hi _ _ hframe =>
    obtain ⟨hhalt, hreserved⟩ := ordinary_of_opcode_mem hi (by decide)
    exact .inr (.inr ⟨hhalt, hreserved, hframe.running, hframe.fault⟩)
  | store hi _ _ _ hframe =>
    obtain ⟨hhalt, hreserved⟩ := ordinary_of_opcode_mem hi (by decide)
    exact .inr (.inr ⟨hhalt, hreserved, hframe.running, hframe.fault⟩)
  | reserved hi => exact .inr (.inl ⟨hi, rfl, rfl, rfl, rfl⟩)
  | held hi hframe =>
    obtain ⟨hhalt, hreserved⟩ := ordinary_heldInstr hi
    exact .inr (.inr ⟨hhalt, hreserved, hframe.running, hframe.fault⟩)
  | key hi _ hframe =>
    obtain ⟨hhalt, hreserved⟩ := ordinary_heldInstr hi
    exact .inr (.inr ⟨hhalt, hreserved, hframe.running, hframe.fault⟩)
  | output hi _ hframe =>
    obtain ⟨hhalt, hreserved⟩ := (by decide : ∀ j ∈ [Instr.trapOut, .trapPuts, .trapPutsp],
      j ≠ .trapHalt ∧ ¬(j.opcode = .rti ∨ j.opcode = .res)) i hi
    exact .inr (.inr ⟨hhalt, hreserved, hframe.running, hframe.fault⟩)
  | noService hi =>
    subst hi
    exact .inr (.inr ⟨nofun, nofun, rfl, rfl⟩)
  | halt hi hframe => exact .inl ⟨hi, rfl, hframe.fault, hframe.held⟩

end

/-! ### The rules of instructions -/

/-- Settles O42: the three cases of `Effect.cond`. -/
theorem flagsFollowListedInstructions : Obligations.FlagsFollowListedInstructions := by
  intro i s t h
  obtain ⟨hnone, hcond⟩ | ⟨d, hsource, hflag⟩ | ⟨hsome, hkey, hheld, hcond⟩ := (exec_effect h).cond
  · exact ⟨fun _ => hcond, fun d hd => (nomatch hnone.symm.trans hd)⟩
  · refine ⟨fun hnone => (nomatch hnone.symm.trans hsource), fun d' hd' => .inl ?_⟩
    obtain rfl : d = d' := Option.some.inj (hsource.symm.trans hd')
    exact hflag
  · exact ⟨fun hnone => absurd hnone hsome, fun _ _ => .inr ⟨List.mem_pair.1 hkey, hheld, hcond⟩⟩

/-- Settles O45: the three cases of `Effect.pc`, of which the transfers are excluded. -/
theorem onlyTransfersMovePc : Obligations.OnlyTransfersMovePc := by
  intro i s t h hi
  obtain htransfer | hpc := (exec_effect h).pc
  · exact absurd htransfer hi
  · exact hpc

/-- Settles O46: emissions append, and only the five services make or flush any. -/
theorem onlyServicesEmitOutput : Obligations.OnlyServicesEmitOutput := fun _ _ _ h =>
  ⟨(exec_effect h).output_grows, (exec_effect h).sameConsole⟩

/-! ### Steps -/

theorem executed_of_none {s : State} (h : s.held = none) : executed s = decode (fetch s).1 := by
  rw [executed, h]

theorem executed_of_held {s : State} {k : Held} (h : s.held = some k) : executed s = heldInstr k := by
  rw [executed, h]

/-- A step that answers a next state is idle, or it is the effect of the instruction executed on a state that
differs from the old one by a read and by `pc`. -/
theorem step_effect {s t : State} (h : step s = .next t) :
    (s.running = false ∧ t = s) ∨
      (Running s ∧ ∃ p u, IoFrame s u ∧ Effect (executed s) (setPc p u) t) := by
  obtain ⟨_, hrunning, hidle⟩ | ⟨hfault, hrunning, hheld, hexec⟩ | ⟨k, hfault, hrunning, hheld, hexec⟩ :=
    step_cases h
  · exact .inl ⟨hrunning, hidle⟩
  · refine .inr ⟨⟨hrunning, hfault⟩, s.pc + 1, _, .memRead s.pc s, ?_⟩
    rw [executed_of_none hheld]
    exact exec_effect hexec
  · refine .inr ⟨⟨hrunning, hfault⟩, s.pc + 1, s, .refl s, ?_⟩
    rw [executed_of_held hheld]
    exact exec_effect hexec

/-- What a step of a Running machine does to `running` and `fault`. -/
theorem step_status {s t : State} (h : step s = .next t) (hrunning : s.running = true) :
    s.fault = false ∧
      ((executed s = .trapHalt ∧ t.running = false ∧ t.fault = false ∧ t.held = s.held) ∨
        (((executed s).opcode = .rti ∨ (executed s).opcode = .res) ∧ t.running = true ∧ t.fault = true ∧
          t.faultIr = encode (executed s) ∧ t.held = s.held) ∨
        (executed s ≠ .trapHalt ∧ ¬((executed s).opcode = .rti ∨ (executed s).opcode = .res) ∧
          t.running = true ∧ t.fault = false)) := by
  obtain ⟨hidle, _⟩ | ⟨⟨_, hfault⟩, p, u, hframe, heffect⟩ := step_effect h
  · rw [hidle] at hrunning
    cases hrunning
  · have hstatus := heffect.status
    rw [setPc_running, setPc_fault, setPc_held, hframe.running, hframe.fault, hframe.held, hrunning, hfault] at hstatus
    exact ⟨hfault, hstatus⟩

/-- Settles O43: of the three cases of `step_status`, HALT alone clears `running`. -/
theorem onlyHaltClearsRunning : Obligations.OnlyHaltClearsRunning := by
  intro s t h hrunning
  obtain ⟨_, ⟨hhalt, hcleared, _⟩ | ⟨hreserved, hkept, _⟩ | ⟨hhalt, _, hkept, _⟩⟩ := step_status h hrunning
  · exact ⟨fun _ => hhalt, fun _ => hcleared⟩
  · refine ⟨fun hcleared => (nomatch hcleared.symm.trans hkept), fun hhalt => ?_⟩
    rw [hhalt] at hreserved
    exact absurd hreserved (by decide)
  · exact ⟨fun hcleared => (nomatch hcleared.symm.trans hkept), fun hhalt' => absurd hhalt' hhalt⟩

/-- Settles O44: of the three cases of `step_status`, RTI and RES alone set `fault`. -/
theorem onlyReservedOpcodesFault : Obligations.OnlyReservedOpcodesFault := by
  rintro s t h ⟨hrunning, _⟩
  obtain ⟨_, ⟨hhalt, _, hclear, _⟩ | ⟨hreserved, _, hset, _⟩ | ⟨_, hreserved, _, hclear⟩⟩ := step_status h hrunning
  · rw [hclear, hhalt]
    decide
  · exact ⟨fun _ => hreserved, fun _ => hset⟩
  · exact ⟨fun hset => (nomatch hset.symm.trans hclear), fun hreserved' => absurd hreserved' hreserved⟩

/-- Settles O47: the fetch is one read, and the instruction no store. -/
theorem onlyStoresWriteMemory : Obligations.OnlyStoresWriteMemory := by
  intro s t h hi k h0 h2
  obtain ⟨_, rfl⟩ | ⟨_, p, u, hframe, heffect⟩ := step_effect h
  · rfl
  · exact (heffect.bytes hi h0 h2).trans (hframe.bytes k h0 h2)

/-- Settles O48: the fetch and the instruction each consume from the front. -/
theorem inputConsumedInOrder : Obligations.InputConsumedInOrder := by
  intro s t h
  obtain ⟨_, rfl⟩ | ⟨_, p, u, hframe, heffect⟩ := step_effect h
  · exact ⟨[], rfl⟩
  · obtain ⟨used, hused⟩ := hframe.input
    obtain ⟨used', hused'⟩ := heffect.input
    exact ⟨used ++ used', by rw [hused, ← setPc_input p u, hused', List.append_assoc]⟩

theorem step_wf {s t : State} (h : step s = .next t) (hs : s.mem.wf) : t.mem.wf := by
  obtain ⟨_, rfl⟩ | ⟨_, p, u, hframe, heffect⟩ := step_effect h
  · exact hs
  · exact heffect.wf (hframe.wf hs)

/-- A held step executes GETC or IN, so a step that executes anything else holds none. -/
theorem held_eq_none_of_executed {s : State} (h : executed s ∉ [Instr.trapGetc, .trapIn]) : s.held = none := by
  cases hheld : s.held with
  | none => rfl
  | some k =>
    rw [executed_of_held hheld] at h
    exact absurd (heldInstr_mem k) h

/-- The word that RTI and RES record decodes to them. -/
theorem decode_encode_of_reserved {i : Instr} (h : i.opcode = .rti ∨ i.opcode = .res) : decode (encode i) = i := by
  refine decodeOfEncode i ?_
  revert h
  cases i <;> simp [Instr.opcode, Instr.wellFormed]

/-- Settles O52: the canonical form is kept by every step; the rest is read off `step_status`. Only RTI and RES set
the latch, they keep `running` and record their own word; HALT and they execute while no step is held. -/
theorem stepKeepsInvariant : Obligations.StepKeepsInvariant := by
  intro s t hinv h
  have hwf := step_wf h hinv.memory
  cases hrunning : s.running with
  | false =>
    obtain ⟨_, rfl⟩ | ⟨⟨hrun, _⟩, _⟩ := step_effect h
    · exact hinv
    · rw [hrunning] at hrun
      cases hrun
  | true =>
    obtain ⟨_, ⟨hhalt, _, hfault, hheld⟩ | ⟨hreserved, hrun, _, hrecord, hheld⟩ | ⟨_, _, hrun, hfault⟩⟩ :=
      step_status h hrunning
    · exact .of_wf hwf hfault (hheld.trans (held_eq_none_of_executed (by rw [hhalt]; decide)))
    · have hnone : s.held = none := held_eq_none_of_executed fun hmem => by
        exact absurd hreserved ((by decide : ∀ j ∈ [Instr.trapGetc, .trapIn],
          ¬(j.opcode = .rti ∨ j.opcode = .res)) _ hmem)
      exact ⟨hwf, fun _ => hrun, fun _ => by rwa [hrecord, decode_encode_of_reserved hreserved],
        fun hne => absurd (hheld.trans hnone) hne⟩
    · exact ⟨hwf, fun hset => (nomatch hset.symm.trans hfault), fun hset => (nomatch hset.symm.trans hfault),
        fun _ => ⟨hrun, hfault⟩⟩

end Sys2Proof.Machine
end

section
/-! PROOFS. What no instruction reads (spec/10_state.md R17 and section 5): the run flags and the fault record, and,
BR apart, the condition flags. Every operation is shown to act alike on two states that differ in these alone. -/

namespace Sys2Proof.Machine

/-- The fields that hardly any instruction reads. -/
structure Status where
  cond : Cond
  running : Bool
  fault : Bool
  faultIr : Word

/-- `s` with these fields replaced. -/
def State.withStatus (s : State) (v : Status) : State :=
  { s with cond := v.cond, running := v.running, fault := v.fault, faultIr := v.faultIr }

/-! ### Operations on a state with another status -/

section
variable (s : State) (v : Status)

theorem kbdAvail_withStatus : kbdAvail (s.withStatus v) = ((kbdAvail s).1, (kbdAvail s).2.withStatus v) := by
  unfold kbdAvail
  dsimp only [State.withStatus]
  cases s.polls <;> rfl

theorem kbdTake_withStatus : kbdTake (s.withStatus v) = ((kbdTake s).1, (kbdTake s).2.withStatus v) := by
  unfold kbdTake
  dsimp only [State.withStatus]
  cases s.input <;> rfl

theorem kbdRead_withStatus : kbdRead (s.withStatus v) = ((kbdRead s).1, (kbdRead s).2.withStatus v) := by
  unfold kbdRead
  dsimp only [State.withStatus]
  cases s.input <;> rfl

theorem memWrite_withStatus (a w : Word) : memWrite a w (s.withStatus v) = (memWrite a w s).withStatus v := rfl

theorem pollKeyboard_withStatus : pollKeyboard (s.withStatus v) = (pollKeyboard s).withStatus v := by
  unfold pollKeyboard
  dsimp only
  rw [kbdAvail_withStatus]
  split
  · rw [memWrite_withStatus, kbdTake_withStatus, memWrite_withStatus]
  · rw [memWrite_withStatus]

theorem memRead_withStatus (a : Word) :
    memRead a (s.withStatus v) = ((memRead a s).1, (memRead a s).2.withStatus v) := by
  by_cases ha : a = Param.kbsr
  · rw [ha, memRead_kbsr, memRead_kbsr, pollKeyboard_withStatus, kbdAvail_withStatus]
  · rw [memRead_of_ne ha, memRead_of_ne ha]
    rfl

theorem promptOnce_withStatus : promptOnce (s.withStatus v) = (promptOnce s).withStatus v := by
  rw [promptOnce_eq, promptOnce_eq]
  rfl

/-- A destination write sets `cond` whatever it was. -/
theorem defineReg_withStatus (d : Reg) (w : Word) :
    defineReg d w (s.withStatus v) = (defineReg d w s).withStatus { v with cond := condOf w } := by
  have hcond := defineReg_cond d w (s.withStatus v)
  rw [← hcond]
  rfl

/-- The end of a load reads alike, and then sets `cond` whatever it was. -/
theorem loadInto_withStatus (d : Reg) (a : Word) :
    loadInto d a (s.withStatus v) = defineReg d (memRead a s).1 ((memRead a s).2.withStatus v) := by
  rw [loadInto, memRead_withStatus]

theorem stringPass_withStatus (emit : Word → List Byte) (n : Nat) (a : Word) :
    stringPass emit n a (s.withStatus v) =
      ((stringPass emit n a s).1, (stringPass emit n a s).2.withStatus v) := by
  induction n generalizing a s with
  | zero => rfl
  | succ n ih =>
    have hread := memRead_withStatus s v a
    by_cases hz : (memRead a s).1 = 0
    · rw [stringPass_zero hz, stringPass_zero (by rw [hread]; exact hz), hread]
    · rw [stringPass_cons hz, stringPass_cons (by rw [hread]; exact hz), hread]
      exact ih (conOut (emit (memRead a s).1) (memRead a s).2) (a + 1)

theorem stringPasses_withStatus (emit : Word → List Byte) (n : Nat) (a : Word) :
    stringPasses emit n a (s.withStatus v) =
      ((stringPasses emit n a s).1, (stringPasses emit n a s).2.withStatus v) := by
  induction n generalizing s with
  | zero => exact stringPass_withStatus s v emit _ a
  | succ n ih =>
    rw [stringPasses_succ, stringPasses_succ, stringPass_withStatus]
    split
    · rfl
    · exact ih _

end

theorem stringService_withStatus {emit : Word → List Byte} {s t : State} (v : Status)
    (h : stringService emit s = .next t) : stringService emit (s.withStatus v) = .next (t.withStatus v) := by
  have hlink : saveLink (s.withStatus v) = (saveLink s).withStatus v := rfl
  have harg : readReg Param.trapArg (s.withStatus v) = readReg Param.trapArg s := rfl
  have hlay : ∀ u : State, layPolls (u.withStatus v) = (layPolls u).withStatus v := fun _ => rfl
  have hpolls : ∀ u : State, (u.withStatus v).polls = u.polls := fun _ => rfl
  cases hfirst : stringPass emit passLength (readReg Param.trapArg s) (saveLink s) with
  | mk found u =>
    have hfirst' : stringPass emit passLength (readReg Param.trapArg (s.withStatus v)) (saveLink (s.withStatus v)) =
        (found, u.withStatus v) := by rw [hlink, harg, stringPass_withStatus, hfirst]
    cases found with
    | true =>
      obtain rfl := Host.Outcome.next.inj ((stringService_of_first_pass hfirst).symm.trans h)
      exact stringService_of_first_pass hfirst'
    | false =>
      have hends := stringService_of_loop_ends hfirst'
      rw [hlay, hpolls, harg, stringPasses_withStatus] at hends
      cases hloop : (stringPasses emit (layPolls u).polls.length (readReg Param.trapArg s) (layPolls u)).1 with
      | true =>
        obtain rfl := Host.Outcome.next.inj ((stringService_of_loop_ends hfirst hloop).symm.trans h)
        exact hends hloop
      | false => exact nomatch (stringService_of_loop_goes_on hfirst hloop).symm.trans h

/-! ### Instructions -/

/-- How `i` answers `s` and `t` from a state with another status: `t` with another status, which has the fields of
`t` where it began with those of `s`, and the given `cond` unless the instruction sets flags. -/
def ActsAlike (i : Instr) (s t : State) (v : Status) : Prop :=
  ∃ v' : Status, exec i (s.withStatus v) = .next (t.withStatus v') ∧
    (v.cond = s.cond → v'.cond = t.cond) ∧ (v.running = s.running → v'.running = t.running) ∧
    (v.fault = s.fault → v'.fault = t.fault) ∧ (v.faultIr = s.faultIr → v'.faultIr = t.faultIr) ∧
    (flagSource i = none → v'.cond = v.cond)

/-- No field of the status differs. -/
def SameStatus (s t : State) : Prop :=
  t.cond = s.cond ∧ t.running = s.running ∧ t.fault = s.fault ∧ t.faultIr = s.faultIr

theorem SameStatus.refl (s : State) : SameStatus s s := ⟨rfl, rfl, rfl, rfl⟩

theorem IoFrame.sameStatus {s t : State} (h : IoFrame s t) : SameStatus s t :=
  ⟨h.cond, h.running, h.fault, h.faultIr⟩

section
variable {i : Instr} {s t : State} {v : Status}

/-- An instruction that passes the status on. -/
theorem ActsAlike.of_sameStatus (h : exec i (s.withStatus v) = .next (t.withStatus v)) (hst : SameStatus s t) :
    ActsAlike i s t v := by
  obtain ⟨hcond, hrunning, hfault, hfaultIr⟩ := hst
  exact ⟨v, h, fun hv => hv.trans hcond.symm, fun hv => hv.trans hrunning.symm, fun hv => hv.trans hfault.symm,
    fun hv => hv.trans hfaultIr.symm, fun _ => rfl⟩

/-- An instruction that ends in a destination write and passes the rest of the status on. -/
theorem ActsAlike.of_defineReg {d : Reg} {w : Word} {u : State}
    (h : exec i (s.withStatus v) = .next (defineReg d w (u.withStatus v))) (hst : SameStatus s u)
    (hsource : flagSource i = some d) : ActsAlike i s (defineReg d w u) v := by
  obtain ⟨_, hrunning, hfault, hfaultIr⟩ := hst
  rw [defineReg_withStatus] at h
  exact ⟨_, h, fun _ => (defineReg_cond d w u).symm, fun hv => hv.trans hrunning.symm,
    fun hv => hv.trans hfault.symm, fun hv => hv.trans hfaultIr.symm, fun hnone => (nomatch hnone.symm.trans hsource)⟩

end

theorem trapGetc_actsAlike {s t : State} (v : Status) (h : exec .trapGetc s = .next t) :
    ActsAlike .trapGetc s t v := by
  have hread' := kbdRead_withStatus s v
  have hframe := IoFrame.kbdRead s
  cases hread : kbdRead s with
  | mk answer u =>
    rw [hread] at hread' hframe
    cases answer with
    | none =>
      obtain rfl := Host.Outcome.next.inj ((exec_trapGetc_of_hold hread).symm.trans h)
      exact .of_sameStatus (exec_trapGetc_of_hold hread') hframe.sameStatus
    | some c =>
      obtain rfl := Host.Outcome.next.inj ((exec_trapGetc_of_key hread).symm.trans h)
      exact .of_defineReg (u := complete (saveLink u)) (exec_trapGetc_of_key hread') hframe.sameStatus rfl

theorem trapIn_actsAlike {s t : State} (v : Status) (h : exec .trapIn s = .next t) : ActsAlike .trapIn s t v := by
  have hread' := kbdRead_withStatus (promptOnce s) v
  rw [← promptOnce_withStatus] at hread'
  have hframe := (IoFrame.promptOnce s).trans (.kbdRead (promptOnce s))
  cases hread : kbdRead (promptOnce s) with
  | mk answer u =>
    rw [hread] at hread' hframe
    cases answer with
    | none =>
      obtain rfl := Host.Outcome.next.inj ((exec_trapIn_of_hold hread).symm.trans h)
      exact .of_sameStatus (exec_trapIn_of_hold hread') hframe.sameStatus
    | some c =>
      obtain rfl := Host.Outcome.next.inj ((exec_trapIn_of_key hread).symm.trans h)
      exact .of_defineReg (u := complete (saveLink (conFlush (conOut [c] u)))) (exec_trapIn_of_key hread')
        hframe.sameStatus rfl

theorem branchTaken_withStatus (nzp : BitVec 3) {s : State} {v : Status} (h : v.cond = s.cond) :
    branchTaken nzp (s.withStatus v) = branchTaken nzp s := by
  unfold branchTaken
  rw [← h]
  rfl

/-- Every instruction acts alike on states that differ in the status, BR only where they agree in `cond`. -/
theorem exec_actsAlike {i : Instr} {s t : State} {v : Status} (hbr : i.opcode = .br → v.cond = s.cond)
    (h : exec i s = .next t) : ActsAlike i s t v := by
  have hread := fun a => memRead_withStatus s v a
  have hst := fun a => (IoFrame.memRead a s).sameStatus
  cases i with
  | br nzp off =>
    obtain rfl := Host.Outcome.next.inj ((exec_br nzp off s).symm.trans h)
    refine .of_sameStatus ?_ (.refl s)
    rw [exec_br, branchTaken_withStatus nzp (hbr rfl)]
    rfl
  | add | addImm | and | andImm | not | lea =>
    obtain rfl := Host.Outcome.next.inj h
    exact .of_defineReg rfl (.refl s) rfl
  | jmp | jsr | jsrr | trapOut | trapOther =>
    obtain rfl := Host.Outcome.next.inj h
    exact .of_sameStatus rfl (.refl s)
  | ld dr off =>
    obtain rfl := Host.Outcome.next.inj h
    exact .of_defineReg (congrArg Host.Outcome.next (loadInto_withStatus s v dr (pcRelative off s))) (hst _) rfl
  | ldr dr base off =>
    obtain rfl := Host.Outcome.next.inj h
    exact .of_defineReg (congrArg Host.Outcome.next (loadInto_withStatus s v dr (baseOffset base off s))) (hst _) rfl
  | ldi dr off =>
    obtain rfl := Host.Outcome.next.inj h
    have hpointer : pointer off (s.withStatus v) = ((pointer off s).1, (pointer off s).2.withStatus v) := hread _
    have hexec : exec (.ldi dr off) (s.withStatus v) =
        .next (loadInto dr (pointer off s).1 ((pointer off s).2.withStatus v)) := by
      rw [exec, execLdi, hpointer]
    rw [loadInto_withStatus] at hexec
    exact .of_defineReg hexec ((IoFrame.memRead _ s).trans (.memRead _ _)).sameStatus rfl
  | st | str =>
    obtain rfl := Host.Outcome.next.inj h
    exact .of_sameStatus rfl (.refl s)
  | sti sr off =>
    obtain rfl := Host.Outcome.next.inj ((exec_sti sr off s).symm.trans h)
    refine .of_sameStatus ((exec_sti sr off _).trans ?_) (hst (s.pc + sext off))
    exact congrArg (fun r => Host.Outcome.next (memWrite r.1 (readReg sr s) r.2)) (hread (s.pc + sext off))
  | rti | res =>
    obtain rfl := Host.Outcome.next.inj h
    exact ⟨{ v with fault := true, faultIr := _ }, rfl, id, id, fun _ => rfl, fun _ => rfl, fun _ => rfl⟩
  | trapGetc => exact trapGetc_actsAlike v h
  | trapIn => exact trapIn_actsAlike v h
  | trapPuts | trapPutsp =>
    exact .of_sameStatus (stringService_withStatus v h) (IoFrame.stringService h).1.sameStatus
  | trapHalt =>
    obtain rfl := Host.Outcome.next.inj h
    exact ⟨{ v with running := false }, rfl, id, fun _ => rfl, id, id, fun _ => rfl⟩

/-- Settles O49: the status before differs in all but `cond`, so the answer differs in no more. -/
theorem statusIsReadByNoInstruction : Obligations.StatusIsReadByNoInstruction := by
  intro i b f w s t h
  obtain ⟨⟨c, b', f', w'⟩, hexec, hcond, _⟩ :=
    exec_actsAlike (v := { cond := s.cond, running := b, fault := f, faultIr := w }) (fun _ => rfl) h
  obtain rfl : c = t.cond := hcond rfl
  exact ⟨_, hexec, rfl⟩

/-- Settles O50: the status before differs in `cond` alone, so the answer differs in no more. -/
theorem onlyBranchReadsFlags : Obligations.OnlyBranchReadsFlags := by
  intro i c s t hi h
  obtain ⟨⟨c', b, f, w⟩, hexec, _, hrunning, hfault, hfaultIr, hkept⟩ :=
    exec_actsAlike (v := { cond := c, running := s.running, fault := s.fault, faultIr := s.faultIr })
      (fun hbr => absurd hbr hi) h
  obtain rfl : b = t.running := hrunning rfl
  obtain rfl : f = t.fault := hfault rfl
  obtain rfl : w = t.faultIr := hfaultIr rfl
  exact ⟨_, hexec, rfl, hkept⟩

end Sys2Proof.Machine
end
